-- ==== Sys2Proof/Word.lean ====
section
/-! DEFINITION. The word types of the block (00_scope.md R7, R8; 10_state.md R21): bytes, bus words, operand
register values and window offsets. -/

namespace Sys2Proof

/-- A byte of WMEM or of an operand; bit 7 is its most significant bit (R8). -/
abbrev Byte := BitVec 8

/-- A word of the host bus or of a register as the host sees it (R8, R71). -/
abbrev Word := BitVec 32

/-- What an operand register holds: PTR_BITS = 9 bits, unsigned (R6, R21). -/
abbrev Ptr := BitVec 9

/-- A byte offset within the host window, the value of PADDR: 9 bits, all decoded (R60, R63). -/
abbrev Offset := BitVec 9

end Sys2Proof
end

