-- ==== Sys2Proof/Syntax.lean ====
section
/-! DEFINITION. The instruction set: one constructor of `Instr` per row of spec/opcode_table.json, with the
operands in the assembler's order (30_encoding.md R102), and `Command`, the stored values that encode one
(R90). -/

namespace Sys2Proof

/-- A command of the block with the values of the operand registers it reads (R96, R102). Pointers and
lengths are the unsigned values of 9-bit registers, M that of the 8-bit IMM field (R101, R93):
`Instr.wellFormed` says which fit. Fields a command ignores are no part of it (R99). -/
inductive Instr where
  /-- `cbc.aes DST, SRCA, LEN, KEYP, KEYLEN, IVP` (R153). -/
  | cbcAes (dst srca len keyp keylen ivp : Nat)
  /-- `cbc.tdea DST, SRCA, LEN, KEYP, KEYLEN, IVP` (R154). -/
  | cbcTdea (dst srca len keyp keylen ivp : Nat)
  /-- `cmac.sk DST, KEYP, KEYLEN` (R200). -/
  | cmacSk (dst keyp keylen : Nat)
  /-- `xor DST, SRCA, SRCB, LEN` (R120). -/
  | xor (dst srca srcb len : Nat)
  /-- `shl1 DST, SRCA, LEN` (R130). -/
  | shl1 (dst srca len : Nat)
  /-- `pad DST, SRCA, LEN, M` (R140). -/
  | pad (dst srca len m : Nat)
  /-- `rev DST, SRCA, LEN` (R145). -/
  | rev (dst srca len : Nat)
  /-- `copy DST, SRCA, LEN` (R148). -/
  | copy (dst srca len : Nat)
  deriving DecidableEq, Repr

/-- What `decode` of R97 names: the eight commands, without their operands. -/
inductive Opcode where
  | cbcAes | cbcTdea | cmacSk | xor | shl1 | pad | rev | copy
  deriving DecidableEq, Repr

/-- Why a command word is no command (R97, R98): reported as an error by the completion step, R221 and R222. -/
inductive DecodeError where
  /-- OP is not in the opcode map (R221). -/
  | illegalOp
  /-- ALG is not legal for OP 0x01 or OP 0x02 (R222). -/
  | badAlg
  deriving DecidableEq, Repr

/-- What the CMD register stores of the command word: OP, ALG and IMM; bits 15:11 and 31:24 are not stored
(R41, R91, R94). -/
structure CmdWord where
  /-- CMD[7:0]. -/
  op : BitVec 8
  /-- CMD[10:8]. -/
  alg : BitVec 3
  /-- CMD[23:16]. -/
  imm : BitVec 8
  deriving DecidableEq, Repr

/-- A command as the block stores it: the command word and the seven operand registers (R90). -/
structure Command where
  cmd : CmdWord
  srca : Ptr
  srcb : Ptr
  dst : Ptr
  len : Ptr
  keyp : Ptr
  keylen : Ptr
  ivp : Ptr
  deriving DecidableEq, Repr

end Sys2Proof
end

