-- ==== Sys2Proof/WellFormed.lean ====
section
/-! DEFINITION. Which instructions can be written down: each operand fits its field (30_encoding.md R103). -/

namespace Sys2Proof

/-- A pointer or length fits its 9-bit register (R103, R21). -/
def fitsRegister (v : Nat) : Bool := v < 512

/-- A modulus fits the 8-bit IMM field (R103, R93). -/
def fitsImm (v : Nat) : Bool := v < 256

/-- The assembler rejects a value that does not fit its field (R103). Whether the values are legal for the
command (a key length, a range) is judged when it completes, not here (R41). `commandTransfers`, `runCommandLine` and
`runProgram` reject a line by this. -/
def Instr.wellFormed : Instr → Bool
  | .cbcAes dst srca len keyp keylen ivp =>
    fitsRegister dst && fitsRegister srca && fitsRegister len && fitsRegister keyp && fitsRegister keylen &&
      fitsRegister ivp
  | .cbcTdea dst srca len keyp keylen ivp =>
    fitsRegister dst && fitsRegister srca && fitsRegister len && fitsRegister keyp && fitsRegister keylen &&
      fitsRegister ivp
  | .cmacSk dst keyp keylen => fitsRegister dst && fitsRegister keyp && fitsRegister keylen
  | .xor dst srca srcb len => fitsRegister dst && fitsRegister srca && fitsRegister srcb && fitsRegister len
  | .shl1 dst srca len => fitsRegister dst && fitsRegister srca && fitsRegister len
  | .pad dst srca len m => fitsRegister dst && fitsRegister srca && fitsRegister len && fitsImm m
  | .rev dst srca len => fitsRegister dst && fitsRegister srca && fitsRegister len
  | .copy dst srca len => fitsRegister dst && fitsRegister srca && fitsRegister len

end Sys2Proof
end

