-- ==== Sys2Proof/Decode.lean ====
section
/-! DEFINITION. The decoder of 30_encoding.md R97, total on any words, and the encoder that R91, R92, R95 and
R104 give. The bits of an instruction beyond the command word are its operand registers, one 32-bit word
each, in the order of the window map (notes/assumptions/9.md). -/

namespace Sys2Proof

/-- OP = CMD[7:0] (R91). -/
def opField (w : Word) : BitVec 8 := w.extractLsb' 0 8

/-- ALG = CMD[10:8] (R91). -/
def algField (w : Word) : BitVec 3 := w.extractLsb' 8 3

/-- IMM = CMD[23:16] (R91, R93). -/
def immField (w : Word) : BitVec 8 := w.extractLsb' 16 8

/-- What CMD stores of a written word: bits 15:11 and 31:24 are discarded (R41, R94). -/
def CmdWord.ofWord (w : Word) : CmdWord := ⟨opField w, algField w, immField w⟩

/-- The word a read of CMD returns: the bits that are not stored read 0 (R41). -/
def CmdWord.toWord (c : CmdWord) : Word :=
  c.op.setWidth 32 ||| (c.alg.setWidth 32 <<< 8) ||| (c.imm.setWidth 32 <<< 16)

/-- What an operand register stores of a written word: wdata[8:0] (R30). -/
def ptrOfWord (w : Word) : Ptr := w.extractLsb' 0 9

/-- `decode(op, alg)`, line by line as R97 writes it. -/
def decodeOpcode (op : BitVec 8) (alg : BitVec 3) : Except DecodeError Opcode :=
  if op = 0x01#8 ∧ alg = 0#3 then .ok .cbcAes
  else if op = 0x01#8 ∧ alg = 1#3 then .ok .cbcTdea
  else if op = 0x01#8 then .error .badAlg
  else if op = 0x02#8 ∧ alg = 0#3 then .ok .cmacSk
  else if op = 0x02#8 then .error .badAlg
  else if op = 0x10#8 then .ok .xor
  else if op = 0x11#8 then .ok .shl1
  else if op = 0x12#8 then .ok .pad
  else if op = 0x13#8 then .ok .rev
  else if op = 0x14#8 then .ok .copy
  else .error .illegalOp

/-- The operands a command reads, as R96 tabulates them: the unsigned register values, unscaled (R101). -/
def Opcode.withOperands (o : Opcode) (c : Command) : Instr :=
  match o with
  | .cbcAes => .cbcAes c.dst.toNat c.srca.toNat c.len.toNat c.keyp.toNat c.keylen.toNat c.ivp.toNat
  | .cbcTdea => .cbcTdea c.dst.toNat c.srca.toNat c.len.toNat c.keyp.toNat c.keylen.toNat c.ivp.toNat
  | .cmacSk => .cmacSk c.dst.toNat c.keyp.toNat c.keylen.toNat
  | .xor => .xor c.dst.toNat c.srca.toNat c.srcb.toNat c.len.toNat
  | .shl1 => .shl1 c.dst.toNat c.srca.toNat c.len.toNat
  | .pad => .pad c.dst.toNat c.srca.toNat c.len.toNat c.cmd.imm.toNat
  | .rev => .rev c.dst.toNat c.srca.toNat c.len.toNat
  | .copy => .copy c.dst.toNat c.srca.toNat c.len.toNat

/-- The decoder on the stored command (R90, R97). -/
def decodeCommand (c : Command) : Except DecodeError Instr :=
  match decodeOpcode c.cmd.op c.cmd.alg with
  | .error e => .error e
  | .ok o => .ok (o.withOperands c)

/-- The command that eight bus words store, CMD first and then SRCA, SRCB, DST, LEN, KEYP, KEYLEN, IVP (the
order of offsets 0x010 to 0x02C, R64); a word that is not given is 0. -/
def Command.ofWords (ws : List Word) : Command where
  cmd := CmdWord.ofWord (ws.getD 0 0)
  srca := ptrOfWord (ws.getD 1 0)
  srcb := ptrOfWord (ws.getD 2 0)
  dst := ptrOfWord (ws.getD 3 0)
  len := ptrOfWord (ws.getD 4 0)
  keyp := ptrOfWord (ws.getD 5 0)
  keylen := ptrOfWord (ws.getD 6 0)
  ivp := ptrOfWord (ws.getD 7 0)

/-- The decoder on bus words, total on any list of them. -/
def decode (ws : List Word) : Except DecodeError Instr := decodeCommand (Command.ofWords ws)

/-- The command word of a line: `OP | ALG<<8 | IMM<<16`, ignored fields 0 (R104 step 2, R95, R92). -/
def Instr.cmdWord : Instr → Word
  | .cbcAes .. => 0x00000001#32
  | .cbcTdea .. => 0x00000101#32
  | .cmacSk .. => 0x00000002#32
  | .xor .. => 0x00000010#32
  | .shl1 .. => 0x00000011#32
  | .pad _ _ _ m => 0x00000012#32 ||| (BitVec.ofNat 32 m <<< 16)
  | .rev .. => 0x00000013#32
  | .copy .. => 0x00000014#32

/-- The eight words of an instruction: the canonical command word (R99) and the operand registers; a register
the command ignores is 0. -/
def encode (i : Instr) : List Word :=
  let regs : List Nat :=
    match i with
    | .cbcAes dst srca len keyp keylen ivp => [srca, 0, dst, len, keyp, keylen, ivp]
    | .cbcTdea dst srca len keyp keylen ivp => [srca, 0, dst, len, keyp, keylen, ivp]
    | .cmacSk dst keyp keylen => [0, 0, dst, 0, keyp, keylen, 0]
    | .xor dst srca srcb len => [srca, srcb, dst, len, 0, 0, 0]
    | .shl1 dst srca len => [srca, 0, dst, len, 0, 0, 0]
    | .pad dst srca len _ => [srca, 0, dst, len, 0, 0, 0]
    | .rev dst srca len => [srca, 0, dst, len, 0, 0, 0]
    | .copy dst srca len => [srca, 0, dst, len, 0, 0, 0]
  i.cmdWord :: regs.map (BitVec.ofNat 32)

/-- Eight 32-bit words cut from a number, the first word from its least significant bits. -/
def imageWords (nbits w : Nat) : List Word :=
  (List.range 8).map fun k => BitVec.ofNat 32 ((w % 2 ^ nbits) >>> (32 * k))

/-- The instruction the decoder reads from one whose bits are `w`, bits from `nbits` on being 0. -/
def decodeTableWord (nbits w : Nat) : Option Instr :=
  match decode (imageWords nbits w) with
  | .ok i => some i
  | .error _ => none

end Sys2Proof
end

