-- ==== Sys2Proof/Config.lean ====
section
/-! DEFINITION. The parameters of 00_scope.md R6: the values this hardware fixes, and the OPEN ones (BASE,
IRQ_LINE) as constants with no body. LATENCY, the third OPEN parameter, is the place of the engine turn in
State.inputs (notes/assumptions/2.md). -/

namespace Sys2Proof.Config

/-- WMEM_BYTES, the size of working memory (R6, R43). -/
def wmemBytes : Nat := 256

/-- The size of the host window in bytes: offsets 0x000 to 0x1FF (R6, R62). -/
def windowBytes : Nat := 512

/-- The constant the ID register reads, the characters SKD1 (R31). -/
def idValue : Word := 0x534B4431#32

/-- The AES block size in bytes (R6, R92). -/
def aesBlock : Nat := 16

/-- The TDEA block size in bytes (R6, R92). -/
def tdeaBlock : Nat := 8

/-- The CMAC constant Rb (R6, R201). -/
def cmacRb : Byte := 0x87#8

/-- The length of the result of CMAC.SK, K1 then K2 (R6, R200). -/
def cmacOutBytes : Nat := 32

/-- OPEN: which 512-byte slot of the platform's address space the window takes (R62, D32). No body: no proof
can see it. -/
opaque windowSlot : Nat

/-- BASE, the platform address of the window: OPEN, a multiple of 512 (R6, R62, U14). -/
def base : Nat := windowBytes * windowSlot

/-- IRQ_LINE, OPEN: the line of the platform's interrupt controller that `irq` drives; no rule of the block
depends on it (R236, U15). -/
opaque irqLine : Nat

end Sys2Proof.Config
end

