-- ==== Sys2Proof/Machine/State.lean ====
section
/-! DEFINITION. The state of the block (10_state.md R20), what its environment still has to do, the ways a
step can stop, and the state right after reset (R47). -/

namespace Sys2Proof.Machine

/-- WMEM as the bytes that differ from what it resets to: (address, byte) pairs, addresses strictly rising
(R43). `Memory.wf` is the canonical form. -/
abbrev Memory := List Host.Cell

/-- What a WMEM byte reads as that nothing has written since reset: 0x00 (R47, R260, U23). -/
def Memory.unwritten : Byte := 0x00#8

/-- The addresses rise strictly from `lo` on, lie inside WMEM, and no listed byte is what an unlisted address
reads as. -/
def Memory.wfFrom : Nat → Memory → Bool
  | _, [] => true
  | lo, (a, b) :: rest =>
    decide (lo ≤ a) && decide (a < Config.wmemBytes) && decide (b ≠ Memory.unwritten) && wfFrom (a + 1) rest

/-- The canonical form of WMEM's list: two such lists that read alike are equal. -/
def Memory.wf (m : Memory) : Bool := Memory.wfFrom 0 m

/-- The fields of STATUS (R33 to R39). -/
structure Status where
  /-- A command is pending (R34). -/
  busy : Bool
  /-- The last command has completed (R35). -/
  done : Bool
  /-- The last command failed (R36). -/
  err : Bool
  /-- The bit the last successful SHL1 shifted out (R37). -/
  c : Bool
  /-- A host access was refused during BUSY (R38). -/
  accerr : Bool
  /-- The error code of the last command (R39). -/
  errcode : BitVec 4
  deriving DecidableEq, Repr

/-- The error kinds a command can end in (R220); `CmdError.code` gives their numbers. -/
inductive CmdError where
  | illegalOp | badAlg | keyFormat | blockAlign | range
  deriving DecidableEq, Repr

/-- One step still to come from outside the engine's own command: a host transfer (R61), a turn of the engine
(R12, R273), or an edge of the reset line (R260). notes/assumptions/1.md says why they are a list in State. -/
inductive Input where
  /-- `BusRead(off)` (R61). -/
  | read (off : Offset)
  /-- `BusWrite(off, wdata)` (R61). -/
  | write (off : Offset) (wdata : Word)
  /-- The engine moves before the host's next transfer, if its step is enabled (R12). -/
  | engineTurn
  /-- The platform drives `rst_n` low (R260). -/
  | resetLow
  /-- The platform releases `rst_n` (R260). -/
  | resetHigh
  deriving DecidableEq, Repr

/-- What the last completed bus transfer answered (R61). -/
inductive Response where
  /-- No transfer has completed since reset. -/
  | noTransfer
  /-- `BusRead` answered `(rdata, err)`; `err` is PSLVERR. -/
  | read (rdata : Word) (err : Bool)
  /-- `BusWrite` answered `err`. -/
  | write (err : Bool)
  deriving DecidableEq, Repr

/-- The state of the block (R20) with the level of its reset line, and the model's own two fields: what its
environment still has to do and what the last transfer answered. -/
structure State where
  /-- R23. -/
  srca : Ptr
  /-- R24. -/
  srcb : Ptr
  /-- R25. -/
  dst : Ptr
  /-- R26. -/
  len : Ptr
  /-- R27. -/
  keyp : Ptr
  /-- R28. -/
  keylen : Ptr
  /-- R29. -/
  ivp : Ptr
  /-- R41: the stored fields of CMD. -/
  cmd : CmdWord
  /-- R33. -/
  status : Status
  /-- R40: IE bit 0, DONEIE. -/
  ie : Bool
  /-- R42. -/
  rlen : Ptr
  /-- R43. -/
  wmem : Memory
  /-- The level of `rst_n`: `true` is released (R60, R260). -/
  rstN : Bool
  /-- The model's own: the steps to come, in their one total order (R78). -/
  inputs : List Input
  /-- The model's own: the answer of the last transfer (R61). -/
  response : Response
  deriving DecidableEq, Repr

/-- Why the machine stops with a fault. -/
inductive Fault where
  /-- An engine access of `n` bytes at `a` with `a + n > 256`, for which MemRead and MemWrite are not defined
  (R9). Raised by `memRead` and `memWrite` only. Safe: the model stops where the spec gives no meaning, and
  every command checks first (R226), so no step raises it. -/
  | wmemOutside (a n : Nat)
  deriving DecidableEq, Repr

/-- Why the machine refuses a step. -/
inductive Refusal where
  /-- An instruction without a meaning in `exec`; no arm answers it. Safe. -/
  | notModelled (mnemonic : String)
  /-- A bus transfer while `rst_n` = 0: the platform must not issue one, and the spec gives it no meaning
  (R260, U16). Raised by `step` only. Safe. -/
  | transferDuringReset
  deriving DecidableEq, Repr

/-- STATUS after reset: every field 0 (R47). -/
def Status.reset : Status where
  busy := false
  done := false
  err := false
  c := false
  accerr := false
  errcode := 0#4

/-- The machine right after power-on reset has been released (R47, R260): every field at the value R47 gives,
`rst_n` high, no transfer made yet and nothing to come. -/
def State.reset : State where
  srca := 0#9
  srcb := 0#9
  dst := 0#9
  len := 0#9
  keyp := 0#9
  keylen := 0#9
  ivp := 0#9
  cmd := ⟨0x00#8, 0#3, 0x00#8⟩
  status := Status.reset
  ie := false
  rlen := 0#9
  wmem := []
  rstN := true
  inputs := []
  response := .noTransfer

end Sys2Proof.Machine
end

