-- ==== Sys2Proof/Machine/Flags.lean ====
section
/-! DEFINITION. STATUS: its word (10_state.md R33), each of its updates (R34 to R39, R48), the error codes
(60_exceptions.md R220) and the interrupt output (R44, R236). -/

namespace Sys2Proof.Machine

/-- The code ERRCODE holds for an error (R220). -/
def CmdError.code : CmdError → BitVec 4
  | .illegalOp => 1#4
  | .badAlg => 2#4
  | .keyFormat => 3#4
  | .blockAlign => 4#4
  | .range => 5#4

/-- The error a command word that decodes to no command ends in (R97, R221, R222). -/
def decodeErrorKind : DecodeError → CmdError
  | .illegalOp => .illegalOp
  | .badAlg => .badAlg

/-- One bit of a register word. -/
def flagAt (b : Bool) (i : Nat) : Word := (BitVec.ofBool b).setWidth 32 <<< i

/-- STATUS as a read returns it: BUSY 0, DONE 1, ERR 2, C 3, ACCERR 4, ERRCODE 11:8, the other bits 0 (R33). -/
def Status.toWord (st : Status) : Word :=
  flagAt st.busy 0 ||| flagAt st.done 1 ||| flagAt st.err 2 ||| flagAt st.c 3 ||| flagAt st.accerr 4 |||
    (st.errcode.setWidth 32 <<< 8)

/-- A bus write to STATUS clears DONE, ERR and ACCERR where the written bit is 1, and changes nothing else
(R33, D28). -/
def Status.writeOneToClear (st : Status) (w : Word) : Status :=
  { st with
    done := st.done && !w.getLsbD 1
    err := st.err && !w.getLsbD 2
    accerr := st.accerr && !w.getLsbD 4 }

/-- START: BUSY 1; DONE, ERR and ERRCODE 0; C and ACCERR kept (R230). -/
def Status.started (st : Status) : Status :=
  { st with busy := true, done := false, err := false, errcode := 0#4 }

/-- The completion step of a command that succeeds: BUSY 0, DONE 1 (R233); SHL1 also writes C (R37). -/
def Status.succeeded (st : Status) (carry : Option Bool) : Status :=
  { st with busy := false, done := true, c := carry.getD st.c }

/-- The completion step of a command that fails: ERR 1, ERRCODE its code, BUSY 0, DONE 1, C kept (R231, R233). -/
def Status.failed (st : Status) (e : CmdError) : Status :=
  { st with busy := false, done := true, err := true, errcode := e.code }

/-- A host access refused during BUSY sets ACCERR and nothing else (R38, R70). -/
def Status.refusedAccess (st : Status) : Status := { st with accerr := true }

/-- The `irq` output: DONEIE AND DONE, a level (R44, R236). -/
def State.irq (s : State) : Bool := s.ie && s.status.done

end Sys2Proof.Machine
end

