-- ==== Sys2Proof/Machine/Bytes.lean ====
section
/-! DEFINITION. Byte strings (00_scope.md R7) and the pure functions on them that the byte primitives
perform (40_byte_primitives.md). Byte 0 is the first byte, the one at the lowest address (R73). -/

namespace Sys2Proof.Machine

/-- `zeros(n)`: n bytes of 0x00 (R7). -/
def zeros (n : Nat) : List Byte := List.replicate n 0x00#8

/-- `int_be(B)`: the big-endian reading of a byte string (R7). -/
def intBe (bs : List Byte) : Nat := bs.foldl (fun acc b => 256 * acc + b.toNat) 0

/-- `bytes_be(v, n)`: the n-byte string whose `int_be` is `v mod 256^n` (R7). -/
def bytesBe (v : Nat) : Nat → List Byte
  | 0 => []
  | n + 1 => bytesBe (v / 256) n ++ [BitVec.ofNat 8 v]

/-- `A XOR B` for equal lengths, byte by byte (R7, R120). -/
def xorBytes (a b : List Byte) : List Byte := List.zipWith (· ^^^ ·) a b

/-- SHL1's result (R130): the bytes as one big-endian bit string, shifted left by one, a 0 shifted in. -/
def shl1Bytes : List Byte → List Byte
  | [] => []
  | [a] => [a <<< 1]
  | a :: b :: rest => ((a <<< 1) ||| (b >>> 7)) :: shl1Bytes (b :: rest)

/-- The bit SHL1 drops: bit 7 of the first byte, or 0 of an empty operand (R130, R131). -/
def droppedBit : List Byte → Bool
  | [] => false
  | a :: _ => a.getLsbD 7

/-- PAD's result length n' (R140), exact on naturals (R141): n when m = 0 or m divides n, else the smallest
multiple of m greater than n. -/
def padLength (n m : Nat) : Nat :=
  if m = 0 ∨ n % m = 0 then n else (n / m + 1) * m

/-- PAD's result: the operand and zero bytes up to the padded length (R140). -/
def padBytes (a : List Byte) (m : Nat) : List Byte := a ++ zeros (padLength a.length m - a.length)

end Sys2Proof.Machine
end

