-- ==== Sys2Proof/Machine/Operands.lean ====
section
/-! DEFINITION. The operands each command uses (60_exceptions.md R225) and the checks made on them before
anything is read (R223, R224, R226, R228). -/

namespace Sys2Proof.Machine

/-- An operand: a pointer into WMEM and a length in bytes. -/
structure Operand where
  ptr : Nat
  len : Nat
  deriving DecidableEq, Repr

/-- The operand lies inside WMEM: the sum is exact, with no wrap-around (R226). -/
def Operand.inWmem (o : Operand) : Bool := o.ptr + o.len ≤ Config.wmemBytes

/-- RANGE, if some operand of the command's row extends past WMEM (R226). -/
def rangeError (os : List Operand) : Option CmdError :=
  if os.all Operand.inWmem then none else some .range

/-- KEY_FORMAT for AES: KEYLEN is not 16 or 24 (R155, R223). -/
def aesKeyError (keylen : Nat) : Option CmdError :=
  if keylen = 16 ∨ keylen = 24 then none else some .keyFormat

/-- KEY_FORMAT for TDEA: KEYLEN is not 24 (R156, R223). -/
def tdeaKeyError (keylen : Nat) : Option CmdError :=
  if keylen = 24 then none else some .keyFormat

/-- BLOCK_ALIGN: LEN is 0 or no multiple of the block size (R151, R224). -/
def blockError (bs len : Nat) : Option CmdError :=
  if len ≠ 0 ∧ len % bs = 0 then none else some .blockAlign

/-- The first failing check, in the order given (R228). -/
def firstError : List (Option CmdError) → Option CmdError
  | [] => none
  | some e :: _ => some e
  | none :: rest => firstError rest

/-- The row of R225 for cbc.aes (bs = 16) and cbc.tdea (bs = 8). -/
def cbcOperands (bs dst srca len keyp keylen ivp : Nat) : List Operand :=
  [⟨srca, len⟩, ⟨dst, len⟩, ⟨keyp, keylen⟩, ⟨ivp, bs⟩]

/-- The row of R225 for cmac.sk. -/
def cmacOperands (dst keyp keylen : Nat) : List Operand := [⟨keyp, keylen⟩, ⟨dst, Config.cmacOutBytes⟩]

/-- The row of R225 for xor. -/
def xorOperands (dst srca srcb len : Nat) : List Operand := [⟨srca, len⟩, ⟨srcb, len⟩, ⟨dst, len⟩]

/-- The row of R225 for shl1, rev and copy. -/
def unaryOperands (dst srca len : Nat) : List Operand := [⟨srca, len⟩, ⟨dst, len⟩]

/-- The row of R225 for pad: the destination has the padded length (R141). -/
def padOperands (dst srca len m : Nat) : List Operand := [⟨srca, len⟩, ⟨dst, padLength len m⟩]

end Sys2Proof.Machine
end

