-- ==== Sys2Proof/Machine/Ops.lean ====
section
/-! DEFINITION. The shared operations: WMEM one byte at a time, MemRead and MemWrite (00_scope.md R9), the
two ends of a completion step (60_exceptions.md R231, R233), START (R230) and reset (70_reset_and_hazards.md
R260, R261). The block has no trap to take or return from (R238, R239): a command's error is
`State.commandFailed`. -/

namespace Sys2Proof.Machine

/-- One byte of WMEM. -/
def Memory.read : Memory → Nat → Byte
  | [], _ => Memory.unwritten
  | (k, v) :: rest, a => if k = a then v else Memory.read rest a

/-- Store one byte, keeping the canonical form: writing what an unlisted address reads as removes the entry. -/
def Memory.write : Memory → Nat → Byte → Memory
  | [], a, b => if b = Memory.unwritten then [] else [(a, b)]
  | (k, v) :: rest, a, b =>
    if a < k then (if b = Memory.unwritten then (k, v) :: rest else (a, b) :: (k, v) :: rest)
    else if a = k then (if b = Memory.unwritten then rest else (a, b) :: rest)
    else (k, v) :: Memory.write rest a b

/-- Store a byte string from an address up. -/
def Memory.writeBytes : Memory → Nat → List Byte → Memory
  | m, _, [] => m
  | m, a, b :: bs => Memory.writeBytes (Memory.write m a b) (a + 1) bs

/-- The n bytes from address a up: `WMEM[a] || ... || WMEM[a+n-1]` (R9, R73). -/
def Memory.bytes (m : Memory) (a n : Nat) : List Byte := (List.range n).map fun i => m.read (a + i)

/-- `MemRead(a, n)`, defined only for a + n ≤ 256 (R9). -/
def memRead (m : Memory) (a n : Nat) : Except Fault (List Byte) :=
  if a + n ≤ Config.wmemBytes then .ok (m.bytes a n) else .error (.wmemOutside a n)

/-- `MemWrite(a, n, v)` with n the length of v, defined only inside WMEM (R9). -/
def memWrite (m : Memory) (a : Nat) (v : List Byte) : Except Fault Memory :=
  if a + v.length ≤ Config.wmemBytes then .ok (m.writeBytes a v) else .error (.wmemOutside a v.length)

/-- What a command's pseudocode computes: the bytes of its result and, for SHL1 only, the carry. -/
structure Result where
  bytes : List Byte
  carry : Option Bool
  deriving DecidableEq, Repr

/-- A command that fails: no byte written, RLEN 0, the error in STATUS, nothing else changed (R231, R232, R233). -/
def State.commandFailed (s : State) (e : CmdError) : State :=
  { s with status := s.status.failed e, rlen := 0#9 }

/-- A command that succeeds: WMEM with the result, RLEN the result's length, STATUS completed (R233, R42). The
result stays in WMEM, where a host that wants to see an intermediate value reads it; nothing else logs one (R251). -/
def State.commandSucceeded (s : State) (m : Memory) (r : Result) : State :=
  { s with wmem := m, rlen := BitVec.ofNat 9 r.bytes.length, status := s.status.succeeded r.carry }

/-- The completion step of a decoded command (R233): the first failing check ends it; otherwise all MemReads
and the computation, then MemWrite of the whole result at DST (R72). -/
def runCommand (checks : List (Option CmdError)) (dst : Nat) (compute : Memory → Except Fault Result)
    (s : State) : Host.Outcome State Fault Refusal :=
  match firstError checks with
  | some e => .next (s.commandFailed e)
  | none =>
    match compute s.wmem with
    | .error f => .fault f
    | .ok r =>
      match memWrite s.wmem dst r.bytes with
      | .error f => .fault f
      | .ok m => .next (s.commandSucceeded m r)

/-- START (R230): STATUS only. -/
def State.start (s : State) : State := { s with status := s.status.started }

/-- Reset of the block (R47, R260, R261): every register and every WMEM byte; what its environment does next,
the level of the reset line and the last transfer's answer are not the block's and stay. -/
def State.resetBlock (s : State) : State :=
  { State.reset with rstN := s.rstN, inputs := s.inputs, response := s.response }

/-- The command the block holds (R90, R81): CMD and the operand registers. -/
def State.command (s : State) : Command where
  cmd := s.cmd
  srca := s.srca
  srcb := s.srcb
  dst := s.dst
  len := s.len
  keyp := s.keyp
  keylen := s.keylen
  ivp := s.ivp

/-- The block with a command in CMD and the operand registers. -/
def State.withCommand (s : State) (c : Command) : State :=
  { s with
    cmd := c.cmd, srca := c.srca, srcb := c.srcb, dst := c.dst, len := c.len, keyp := c.keyp
    keylen := c.keylen, ivp := c.ivp }

end Sys2Proof.Machine
end

