-- ==== Sys2Proof/Machine/Bus.lean ====
section
/-! DEFINITION. The host interface (20_memory.md): the window map, one bus read and one bus write as atomic
steps (R61), the refusals during BUSY (R70) and the platform's placement of the window (R62). -/

namespace Sys2Proof.Machine

/-- The registers of the window (R64). -/
inductive Register where
  | id | ctrl | status | ie | cmd | srca | srcb | dst | len | keyp | keylen | ivp | rlen
  deriving DecidableEq, Repr

/-- What an aligned offset reaches (R63, R64). -/
inductive Target where
  | register (r : Register)
  /-- 0x034 to 0x0FC (R65). -/
  | reserved
  /-- The WMEM bytes 4j to 4j+3, at offset 0x100 + 4j (R66). -/
  | wmemWord (j : Nat)
  deriving DecidableEq, Repr

/-- The window map (R64). -/
def windowMap (off : Offset) : Target :=
  if off = 0x000#9 then .register .id
  else if off = 0x004#9 then .register .ctrl
  else if off = 0x008#9 then .register .status
  else if off = 0x00C#9 then .register .ie
  else if off = 0x010#9 then .register .cmd
  else if off = 0x014#9 then .register .srca
  else if off = 0x018#9 then .register .srcb
  else if off = 0x01C#9 then .register .dst
  else if off = 0x020#9 then .register .len
  else if off = 0x024#9 then .register .keyp
  else if off = 0x028#9 then .register .keylen
  else if off = 0x02C#9 then .register .ivp
  else if off = 0x030#9 then .register .rlen
  else if off.toNat < 0x100 then .reserved
  else .wmemWord ((off.toNat - 0x100) / 4)

/-- A transfer with `off[1:0] != 0` (R69). -/
def misaligned (off : Offset) : Bool := off.toNat % 4 ≠ 0

/-- A WMEM word as the bus sees it: byte 4j in bits 7:0 (R66). -/
def wmemLanes (m : Memory) (j : Nat) : Word :=
  (m.read (4 * j)).setWidth 32 ||| ((m.read (4 * j + 1)).setWidth 32 <<< 8) |||
    ((m.read (4 * j + 2)).setWidth 32 <<< 16) ||| ((m.read (4 * j + 3)).setWidth 32 <<< 24)

/-- The four bytes of a bus word, lane 0 first (R66). -/
def laneBytes (w : Word) : List Byte :=
  [w.extractLsb' 0 8, w.extractLsb' 8 8, w.extractLsb' 16 8, w.extractLsb' 24 8]

/-- What a read of a register returns (R23 to R33, R40 to R42), the same in idle and in BUSY (R70). -/
def registerWord (s : State) : Register → Word
  | .id => Config.idValue
  | .ctrl => 0#32
  | .status => s.status.toWord
  | .ie => flagAt s.ie 0
  | .cmd => s.cmd.toWord
  | .srca => s.srca.setWidth 32
  | .srcb => s.srcb.setWidth 32
  | .dst => s.dst.setWidth 32
  | .len => s.len.setWidth 32
  | .keyp => s.keyp.setWidth 32
  | .keylen => s.keylen.setWidth 32
  | .ivp => s.ivp.setWidth 32
  | .rlen => s.rlen.setWidth 32

/-- A CTRL write while idle: SRST wins over START (R32, R230, R261). -/
def ctrlWrite (s : State) (w : Word) : State :=
  if w.getLsbD 1 then s.resetBlock else if w.getLsbD 0 then s.start else s

/-- The effect of an aligned write while the block is idle (R67). -/
def writeRegister (s : State) (r : Register) (w : Word) : State :=
  match r with
  | .id => s
  | .ctrl => ctrlWrite s w
  | .status => { s with status := s.status.writeOneToClear w }
  | .ie => { s with ie := w.getLsbD 0 }
  | .cmd => { s with cmd := CmdWord.ofWord w }
  | .srca => { s with srca := ptrOfWord w }
  | .srcb => { s with srcb := ptrOfWord w }
  | .dst => { s with dst := ptrOfWord w }
  | .len => { s with len := ptrOfWord w }
  | .keyp => { s with keyp := ptrOfWord w }
  | .keylen => { s with keylen := ptrOfWord w }
  | .ivp => { s with ivp := ptrOfWord w }
  | .rlen => s

/-- The effect of an aligned write while the block is idle, by what the offset reaches (R65, R66, R67). -/
def writeTarget (s : State) (t : Target) (w : Word) : State :=
  match t with
  | .register r => writeRegister s r w
  | .reserved => s
  | .wmemWord j => { s with wmem := s.wmem.writeBytes (4 * j) (laneBytes w) }

/-- An access refused during BUSY: ACCERR, nothing else (R70). -/
def State.accessRefused (s : State) : State := { s with status := s.status.refusedAccess }

/-- The effect of an aligned write while a command is pending: a soft reset, or ACCERR (R70). -/
def writeBusy (s : State) (t : Target) (w : Word) : State :=
  if t = .register .ctrl ∧ w.getLsbD 1 then s.resetBlock else s.accessRefused

/-- `BusWrite(off, wdata) -> err` (R61). -/
def busWrite (off : Offset) (w : Word) (s : State) : State × Bool :=
  if misaligned off then (s, true)
  else if s.status.busy then (writeBusy s (windowMap off) w, false)
  else (writeTarget s (windowMap off) w, false)

/-- `BusRead(off) -> (rdata, err)` (R61, R68, R69, R70). -/
def busRead (off : Offset) (s : State) : State × Word × Bool :=
  if misaligned off then (s, 0#32, true)
  else
    match windowMap off with
    | .register r => (s, registerWord s r, false)
    | .reserved => (s, 0#32, false)
    | .wmemWord j => if s.status.busy then (s.accessRefused, 0#32, false) else (s, wmemLanes s.wmem j, false)

/-- The window offset a platform address reaches, if it reaches the block at all (R62, R63). -/
def offsetOfAddress (address : Nat) : Option Offset :=
  if Config.base ≤ address ∧ address < Config.base + Config.windowBytes then
    some (BitVec.ofNat 9 (address - Config.base))
  else none

end Sys2Proof.Machine
end

