-- ==== Sys2Proof/Machine/BytePrimitives.lean ====
section
/-! DEFINITION. The byte primitive commands xor, shl1, pad, rev and copy (40_byte_primitives.md). Their only
check is RANGE. -/

namespace Sys2Proof.Machine

/-- The pseudocode of xor: both sources are read, then combined byte by byte (R120). -/
def xorCompute (srca srcb len : Nat) (m : Memory) : Except Fault Result := do
  let a ← memRead m srca len
  let b ← memRead m srcb len
  return ⟨xorBytes a b, none⟩

/-- `xor` (R120). -/
def execXor (dst srca srcb len : Nat) (s : State) : Host.Outcome State Fault Refusal :=
  runCommand [rangeError (xorOperands dst srca srcb len)] dst (xorCompute srca srcb len) s

/-- A command on the one source operand (SRCA, LEN): what it computes from the operand's bytes. -/
def unaryCompute (f : List Byte → Result) (srca len : Nat) (m : Memory) : Except Fault Result := do
  let a ← memRead m srca len
  return f a

/-- `shl1` (R130): also writes STATUS.C with the bit it drops (R131). -/
def execShl1 (dst srca len : Nat) (s : State) : Host.Outcome State Fault Refusal :=
  runCommand [rangeError (unaryOperands dst srca len)] dst
    (unaryCompute (fun a => ⟨shl1Bytes a, some (droppedBit a)⟩) srca len) s

/-- `pad` (R140): the destination range is checked against the padded length (R141). -/
def execPad (dst srca len m : Nat) (s : State) : Host.Outcome State Fault Refusal :=
  runCommand [rangeError (padOperands dst srca len m)] dst
    (unaryCompute (fun a => ⟨padBytes a m, none⟩) srca len) s

/-- `rev` (R145). -/
def execRev (dst srca len : Nat) (s : State) : Host.Outcome State Fault Refusal :=
  runCommand [rangeError (unaryOperands dst srca len)] dst
    (unaryCompute (fun a => ⟨a.reverse, none⟩) srca len) s

/-- `copy` (R148). -/
def execCopy (dst srca len : Nat) (s : State) : Host.Outcome State Fault Refusal :=
  runCommand [rangeError (unaryOperands dst srca len)] dst
    (unaryCompute (fun a => ⟨a, none⟩) srca len) s

end Sys2Proof.Machine
end

