-- ==== Sys2Proof/Machine/Aes.lean ====
section
/-! DEFINITION. The AES forward cipher for 16- and 24-byte keys (41_cbc_cipher.md R159 to R168). A column of
the cipher state and a word of the key schedule are both four bytes, so they share one type. -/

namespace Sys2Proof.Machine

/-- `xtime(a)`: multiplication by 2 in GF(2^8) modulo 0x11B (R159). -/
def xtime (a : Byte) : Byte := (a <<< 1) ^^^ (if a.getLsbD 7 then 0x1B#8 else 0x00#8)

/-- Multiplication in GF(2^8) modulo 0x11B, one bit of the second factor at a time (R159, R162). -/
def gfMul (a b : Byte) : Byte :=
  ((List.range 8).foldl (fun (acc : Byte × Byte) i =>
    (if b.getLsbD i then acc.1 ^^^ acc.2 else acc.1, xtime acc.2)) (0x00#8, a)).1

/-- The S-box table of R162: one number per row (high nibble of the argument), its bytes the columns 0 to F
from the left. -/
def sboxRows : List (BitVec 128) :=
  [0x637C777BF26B6FC53001672BFED7AB76#128, 0xCA82C97DFA5947F0ADD4A2AF9CA472C0#128,
   0xB7FD9326363FF7CC34A5E5F171D83115#128, 0x04C723C31896059A071280E2EB27B275#128,
   0x09832C1A1B6E5AA0523BD6B329E32F84#128, 0x53D100ED20FCB15B6ACBBE394A4C58CF#128,
   0xD0EFAAFB434D338545F9027F503C9FA8#128, 0x51A3408F929D38F5BCB6DA2110FFF3D2#128,
   0xCD0C13EC5F974417C4A77E3D645D1973#128, 0x60814FDC222A908846EEB814DE5E0BDB#128,
   0xE0323A0A4906245CC2D3AC629195E479#128, 0xE7C8376D8DD54EA96C56F4EA657AAE08#128,
   0xBA78252E1CA6B4C6E8DD741F4BBD8B8A#128, 0x703EB5664803F60E613557B986C11D9E#128,
   0xE1F8981169D98E949B1E87E9CE5528DF#128, 0x8CA1890DBFE6426841992D0FB054BB16#128]

/-- `SBOX[a]`: the row of the high nibble, the column of the low nibble (R162). -/
def sbox (a : Byte) : Byte :=
  ((sboxRows.getD (a.toNat / 16) 0) >>> (8 * (15 - a.toNat % 16))).setWidth 8

/-- Four bytes: a column of the cipher state, rows 0 to 3 (R161), or a word of the key schedule (R166). -/
structure Column where
  r0 : Byte
  r1 : Byte
  r2 : Byte
  r3 : Byte
  deriving DecidableEq, Repr

/-- Byte `r` of a column (R165). -/
def Column.row (c : Column) : Nat → Byte
  | 0 => c.r0
  | 1 => c.r1
  | 2 => c.r2
  | _ => c.r3

/-- A column of zeros, what is read past the end of a list of columns. -/
def Column.zero : Column := ⟨0x00#8, 0x00#8, 0x00#8, 0x00#8⟩

/-- The bytes of a column in address order. -/
def Column.toBytes (c : Column) : List Byte := [c.r0, c.r1, c.r2, c.r3]

/-- A byte string cut into groups of four (R161, R166). -/
def columnsOf : List Byte → List Column
  | a :: b :: c :: d :: rest => ⟨a, b, c, d⟩ :: columnsOf rest
  | _ => []

/-- The bytes of two columns combined. -/
def Column.xor (x y : Column) : Column := ⟨x.r0 ^^^ y.r0, x.r1 ^^^ y.r1, x.r2 ^^^ y.r2, x.r3 ^^^ y.r3⟩

/-- SBOX on each byte of a column (R162, R166). -/
def Column.sub (c : Column) : Column := ⟨sbox c.r0, sbox c.r1, sbox c.r2, sbox c.r3⟩

/-- `RotWord(a0,a1,a2,a3) = (a1,a2,a3,a0)` (R166). -/
def Column.rot (c : Column) : Column := ⟨c.r1, c.r2, c.r3, c.r0⟩

/-- MixColumns on one column (R164). -/
def Column.mix (c : Column) : Column where
  r0 := xtime c.r0 ^^^ (xtime c.r1 ^^^ c.r1) ^^^ c.r2 ^^^ c.r3
  r1 := c.r0 ^^^ xtime c.r1 ^^^ (xtime c.r2 ^^^ c.r2) ^^^ c.r3
  r2 := c.r0 ^^^ c.r1 ^^^ xtime c.r2 ^^^ (xtime c.r3 ^^^ c.r3)
  r3 := (xtime c.r0 ^^^ c.r0) ^^^ c.r1 ^^^ c.r2 ^^^ xtime c.r3

/-- The cipher state: four columns of four rows (R161). -/
structure AesState where
  c0 : Column
  c1 : Column
  c2 : Column
  c3 : Column
  deriving DecidableEq, Repr

/-- Column `c` of the state. -/
def AesState.col (s : AesState) : Nat → Column
  | 0 => s.c0
  | 1 => s.c1
  | 2 => s.c2
  | _ => s.c3

/-- `s[r][c]` (R161). -/
def AesState.entry (s : AesState) (r c : Nat) : Byte := (s.col c).row r

/-- Four columns of a list from index `i` on. -/
def AesState.ofColumns (cs : List Column) (i : Nat) : AesState :=
  ⟨cs.getD i Column.zero, cs.getD (i + 1) Column.zero, cs.getD (i + 2) Column.zero, cs.getD (i + 3) Column.zero⟩

/-- Input byte `i` goes to row `i mod 4`, column `i / 4` (R161). -/
def AesState.ofBytes (block : List Byte) : AesState := AesState.ofColumns (columnsOf block) 0

/-- The state read out as it was filled (R161). -/
def AesState.toBytes (s : AesState) : List Byte := s.c0.toBytes ++ s.c1.toBytes ++ s.c2.toBytes ++ s.c3.toBytes

/-- SubBytes (R162). -/
def AesState.subBytes (s : AesState) : AesState := ⟨s.c0.sub, s.c1.sub, s.c2.sub, s.c3.sub⟩

/-- ShiftRows: row r rotated left by r positions, `s'[r][c] = s[r][(c + r) mod 4]` (R163). -/
def AesState.shiftRows (s : AesState) : AesState where
  c0 := ⟨s.c0.r0, s.c1.r1, s.c2.r2, s.c3.r3⟩
  c1 := ⟨s.c1.r0, s.c2.r1, s.c3.r2, s.c0.r3⟩
  c2 := ⟨s.c2.r0, s.c3.r1, s.c0.r2, s.c1.r3⟩
  c3 := ⟨s.c3.r0, s.c0.r1, s.c1.r2, s.c2.r3⟩

/-- MixColumns (R164). -/
def AesState.mixColumns (s : AesState) : AesState := ⟨s.c0.mix, s.c1.mix, s.c2.mix, s.c3.mix⟩

/-- AddRoundKey: column c combined with schedule word `4*rnd + c` (R165). -/
def AesState.addRoundKey (s : AesState) (w : List Column) (rnd : Nat) : AesState :=
  let k := AesState.ofColumns w (4 * rnd)
  ⟨s.c0.xor k.c0, s.c1.xor k.c1, s.c2.xor k.c2, s.c3.xor k.c3⟩

/-- `RC[j]`: `RC[1] = 01` and `RC[j] = xtime(RC[j-1])` (R167); index 0 is not used. -/
def roundConstant : Nat → Byte
  | 0 => 0x00#8
  | 1 => 0x01#8
  | j + 2 => xtime (roundConstant (j + 1))

/-- Schedule word `i`, given the words before it, the newest first (R166). -/
def scheduleWord (nk i : Nat) (newestFirst : List Column) : Column :=
  let prev := newestFirst.getD 0 Column.zero
  let t := if i % nk = 0 then
      (prev.rot.sub).xor ⟨roundConstant (i / nk), 0x00#8, 0x00#8, 0x00#8⟩
    else prev
  (newestFirst.getD (nk - 1) Column.zero).xor t

/-- `n` more schedule words from index `i` on (R166). -/
def extendSchedule (nk : Nat) : Nat → Nat → List Column → List Column
  | 0, _, newestFirst => newestFirst
  | n + 1, i, newestFirst => extendSchedule nk n (i + 1) (scheduleWord nk i newestFirst :: newestFirst)

/-- `Nk`: 4 for a 16-byte key, 6 for a 24-byte key (R160). -/
def aesNk (key : List Byte) : Nat := key.length / 4

/-- `Nr = Nk + 6`: 10 or 12 rounds (R160). -/
def aesRounds (key : List Byte) : Nat := aesNk key + 6

/-- `KeyExpansion(key)`: words 0 to 4*(Nr+1)-1 (R166). -/
def keyExpansion (key : List Byte) : List Column :=
  (extendSchedule (aesNk key) (4 * (aesRounds key + 1) - aesNk key) (aesNk key) (columnsOf key).reverse).reverse

/-- One of the rounds 1 to Nr-1 (R160). -/
def aesRound (w : List Column) (s : AesState) (rnd : Nat) : AesState :=
  (s.subBytes.shiftRows.mixColumns).addRoundKey w rnd

/-- `AES_Enc(key, in)` (R160). -/
def aesEnc (key block : List Byte) : List Byte :=
  let nr := aesRounds key
  let w := keyExpansion key
  let s := (List.range' 1 (nr - 1)).foldl (aesRound w) ((AesState.ofBytes block).addRoundKey w 0)
  ((s.subBytes.shiftRows).addRoundKey w nr).toBytes

end Sys2Proof.Machine
end

