-- ==== Sys2Proof/Machine/Des.lean ====
section
/-! DEFINITION. DES and TDEA (41_cbc_cipher.md R170 to R182). Bit 1 of a block is its most significant bit
(R171). -/

namespace Sys2Proof.Machine

/-- A permutation table applied to an input of `n` bits: bit `j` of the `k`-bit output, counted from 1 at the
most significant, is input bit `T[j]` (R171). -/
def permute (n k : Nat) (table : List Nat) (x : BitVec n) : BitVec k :=
  BitVec.ofNat k (table.foldl (fun acc j => 2 * acc + (x.getMsbD (j - 1)).toNat) 0)

/-- IP (R172). -/
def ipTable : List Nat :=
  [58, 50, 42, 34, 26, 18, 10, 2, 60, 52, 44, 36, 28, 20, 12, 4,
   62, 54, 46, 38, 30, 22, 14, 6, 64, 56, 48, 40, 32, 24, 16, 8,
   57, 49, 41, 33, 25, 17, 9, 1, 59, 51, 43, 35, 27, 19, 11, 3,
   61, 53, 45, 37, 29, 21, 13, 5, 63, 55, 47, 39, 31, 23, 15, 7]

/-- FP = IP^-1 (R172). -/
def fpTable : List Nat :=
  [40, 8, 48, 16, 56, 24, 64, 32, 39, 7, 47, 15, 55, 23, 63, 31,
   38, 6, 46, 14, 54, 22, 62, 30, 37, 5, 45, 13, 53, 21, 61, 29,
   36, 4, 44, 12, 52, 20, 60, 28, 35, 3, 43, 11, 51, 19, 59, 27,
   34, 2, 42, 10, 50, 18, 58, 26, 33, 1, 41, 9, 49, 17, 57, 25]

/-- PC1 (R173). -/
def pc1Table : List Nat :=
  [57, 49, 41, 33, 25, 17, 9, 1, 58, 50, 42, 34, 26, 18,
   10, 2, 59, 51, 43, 35, 27, 19, 11, 3, 60, 52, 44, 36,
   63, 55, 47, 39, 31, 23, 15, 7, 62, 54, 46, 38, 30, 22,
   14, 6, 61, 53, 45, 37, 29, 21, 13, 5, 28, 20, 12, 4]

/-- PC2 (R173). -/
def pc2Table : List Nat :=
  [14, 17, 11, 24, 1, 5, 3, 28, 15, 6, 21, 10,
   23, 19, 12, 4, 26, 8, 16, 7, 27, 20, 13, 2,
   41, 52, 31, 37, 47, 55, 30, 40, 51, 45, 33, 48,
   44, 49, 39, 56, 34, 53, 46, 42, 50, 36, 29, 32]

/-- SH, the rotations of the key schedule (R173). -/
def keyRotations : List Nat := [1, 1, 2, 2, 2, 2, 2, 2, 1, 2, 2, 2, 2, 2, 2, 1]

/-- E (R174). -/
def eTable : List Nat :=
  [32, 1, 2, 3, 4, 5, 4, 5, 6, 7, 8, 9,
   8, 9, 10, 11, 12, 13, 12, 13, 14, 15, 16, 17,
   16, 17, 18, 19, 20, 21, 20, 21, 22, 23, 24, 25,
   24, 25, 26, 27, 28, 29, 28, 29, 30, 31, 32, 1]

/-- P (R174). -/
def pTable : List Nat :=
  [16, 7, 20, 21, 29, 12, 28, 17, 1, 15, 23, 26, 5, 18, 31, 10,
   2, 8, 24, 14, 32, 27, 3, 9, 19, 13, 30, 6, 22, 11, 4, 25]

/-- S1, rows 0 to 3 one after another (R175). -/
def sBox1 : List Nat :=
  [14, 4, 13, 1, 2, 15, 11, 8, 3, 10, 6, 12, 5, 9, 0, 7,
   0, 15, 7, 4, 14, 2, 13, 1, 10, 6, 12, 11, 9, 5, 3, 8,
   4, 1, 14, 8, 13, 6, 2, 11, 15, 12, 9, 7, 3, 10, 5, 0,
   15, 12, 8, 2, 4, 9, 1, 7, 5, 11, 3, 14, 10, 0, 6, 13]

/-- S2, rows 0 to 3 one after another (R175). -/
def sBox2 : List Nat :=
  [15, 1, 8, 14, 6, 11, 3, 4, 9, 7, 2, 13, 12, 0, 5, 10,
   3, 13, 4, 7, 15, 2, 8, 14, 12, 0, 1, 10, 6, 9, 11, 5,
   0, 14, 7, 11, 10, 4, 13, 1, 5, 8, 12, 6, 9, 3, 2, 15,
   13, 8, 10, 1, 3, 15, 4, 2, 11, 6, 7, 12, 0, 5, 14, 9]

/-- S3, rows 0 to 3 one after another (R175). -/
def sBox3 : List Nat :=
  [10, 0, 9, 14, 6, 3, 15, 5, 1, 13, 12, 7, 11, 4, 2, 8,
   13, 7, 0, 9, 3, 4, 6, 10, 2, 8, 5, 14, 12, 11, 15, 1,
   13, 6, 4, 9, 8, 15, 3, 0, 11, 1, 2, 12, 5, 10, 14, 7,
   1, 10, 13, 0, 6, 9, 8, 7, 4, 15, 14, 3, 11, 5, 2, 12]

/-- S4, rows 0 to 3 one after another (R175). -/
def sBox4 : List Nat :=
  [7, 13, 14, 3, 0, 6, 9, 10, 1, 2, 8, 5, 11, 12, 4, 15,
   13, 8, 11, 5, 6, 15, 0, 3, 4, 7, 2, 12, 1, 10, 14, 9,
   10, 6, 9, 0, 12, 11, 7, 13, 15, 1, 3, 14, 5, 2, 8, 4,
   3, 15, 0, 6, 10, 1, 13, 8, 9, 4, 5, 11, 12, 7, 2, 14]

/-- S5, rows 0 to 3 one after another (R175). -/
def sBox5 : List Nat :=
  [2, 12, 4, 1, 7, 10, 11, 6, 8, 5, 3, 15, 13, 0, 14, 9,
   14, 11, 2, 12, 4, 7, 13, 1, 5, 0, 15, 10, 3, 9, 8, 6,
   4, 2, 1, 11, 10, 13, 7, 8, 15, 9, 12, 5, 6, 3, 0, 14,
   11, 8, 12, 7, 1, 14, 2, 13, 6, 15, 0, 9, 10, 4, 5, 3]

/-- S6, rows 0 to 3 one after another (R175). -/
def sBox6 : List Nat :=
  [12, 1, 10, 15, 9, 2, 6, 8, 0, 13, 3, 4, 14, 7, 5, 11,
   10, 15, 4, 2, 7, 12, 9, 5, 6, 1, 13, 14, 0, 11, 3, 8,
   9, 14, 15, 5, 2, 8, 12, 3, 7, 0, 4, 10, 1, 13, 11, 6,
   4, 3, 2, 12, 9, 5, 15, 10, 11, 14, 1, 7, 6, 0, 8, 13]

/-- S7, rows 0 to 3 one after another (R175). -/
def sBox7 : List Nat :=
  [4, 11, 2, 14, 15, 0, 8, 13, 3, 12, 9, 7, 5, 10, 6, 1,
   13, 0, 11, 7, 4, 9, 1, 10, 14, 3, 5, 12, 2, 15, 8, 6,
   1, 4, 11, 13, 12, 3, 7, 14, 10, 15, 6, 8, 0, 5, 9, 2,
   6, 11, 13, 8, 1, 4, 10, 7, 9, 5, 0, 15, 14, 2, 3, 12]

/-- S8, rows 0 to 3 one after another (R175). -/
def sBox8 : List Nat :=
  [13, 2, 8, 4, 6, 15, 11, 1, 10, 9, 3, 14, 5, 0, 12, 7,
   1, 15, 13, 8, 10, 3, 7, 4, 12, 5, 6, 11, 0, 14, 9, 2,
   7, 11, 4, 1, 9, 12, 14, 2, 0, 6, 10, 13, 15, 3, 5, 8,
   2, 1, 14, 7, 4, 10, 8, 13, 15, 12, 9, 0, 3, 5, 6, 11]

/-- S1 to S8 (R175). -/
def sBoxes : List (List Nat) := [sBox1, sBox2, sBox3, sBox4, sBox5, sBox6, sBox7, sBox8]

/-- `Sj[row][col]` for the six bits b1 to b6: row = 2*b1 + b6, col = 8*b2 + 4*b3 + 2*b4 + b5 (R174). -/
def sBoxOutput (box : List Nat) (b : BitVec 6) : BitVec 4 :=
  let row := 2 * (b.getMsbD 0).toNat + (b.getMsbD 5).toNat
  let col := (b.extractLsb' 1 4).toNat
  BitVec.ofNat 4 (box.getD (16 * row + col) 0)

/-- `O1 || ... || O8`, O1 most significant: group j is bits 6j-5 to 6j of X (R174). -/
def substitute (x : BitVec 48) : BitVec 32 :=
  (List.range 8).foldl (fun acc j =>
    (acc <<< 4) ||| (sBoxOutput (sBoxes.getD j []) (x.extractLsb' (42 - 6 * j) 6)).setWidth 32) 0#32

/-- The round function `f(R, K)` (R174). -/
def roundFunction (r : BitVec 32) (k : BitVec 48) : BitVec 32 :=
  permute 32 32 pTable (substitute (permute 32 48 eTable r ^^^ k))

/-- The subkeys of the rounds still to come, from the halves C and D of the round before (R173). -/
def subkeysFrom : List Nat → BitVec 28 → BitVec 28 → List (BitVec 48)
  | [], _, _ => []
  | n :: rest, c, d =>
    permute 56 48 pc2Table (c.rotateLeft n ++ d.rotateLeft n) :: subkeysFrom rest (c.rotateLeft n) (d.rotateLeft n)

/-- K1 to K16 (R173). -/
def desSubkeys (key : BitVec 64) : List (BitVec 48) :=
  let cd : BitVec 56 := permute 64 56 pc1Table key
  subkeysFrom keyRotations (cd.extractLsb' 28 28) (cd.extractLsb' 0 28)

/-- The rounds `Li <- R(i-1)`, `Ri <- L(i-1) ^ f(R(i-1), Ki)`, and the halves swapped at the end (R176). -/
def desRounds : List (BitVec 48) → BitVec 32 → BitVec 32 → BitVec 64
  | [], l, r => r ++ l
  | k :: ks, l, r => desRounds ks r (l ^^^ roundFunction r k)

/-- A block through IP, the rounds with the given subkeys, and FP (R176). -/
def desBlock (subkeys : List (BitVec 48)) (x : BitVec 64) : BitVec 64 :=
  let v : BitVec 64 := permute 64 64 ipTable x
  permute 64 64 fpTable (desRounds subkeys (v.extractLsb' 32 32) (v.extractLsb' 0 32))

/-- `DES_Enc(K, x)` (R176). -/
def desEnc (key x : BitVec 64) : BitVec 64 := desBlock (desSubkeys key) x

/-- `DES_Dec(K, x)`: the subkeys in reverse order (R177). -/
def desDec (key x : BitVec 64) : BitVec 64 := desBlock (desSubkeys key).reverse x

/-- Eight bytes as a DES block: bit 1 is bit 7 of byte 0 (R171). -/
def desBlockOf (bs : List Byte) : BitVec 64 := BitVec.ofNat 64 (intBe bs)

/-- A DES block as eight bytes (R171). -/
def desBytesOf (x : BitVec 64) : List Byte := bytesBe x.toNat 8

/-- `TDEA_Enc(key, x) = DES_Enc(K3, DES_Dec(K2, DES_Enc(K1, x)))`, the key split into its three parts (R170,
R180). Parity bits are not looked at and no key is rejected (R182). -/
def tdeaEnc (key block : List Byte) : List Byte :=
  let k1 := desBlockOf (key.take 8)
  let k2 := desBlockOf ((key.drop 8).take 8)
  let k3 := desBlockOf ((key.drop 16).take 8)
  desBytesOf (desEnc k3 (desDec k2 (desEnc k1 (desBlockOf block))))

end Sys2Proof.Machine
end

