-- ==== Sys2Proof/Machine/CbcCipher.lean ====
section
/-! DEFINITION. CBC encryption: the chaining (41_cbc_cipher.md R150) and the two commands cbc.aes (R153) and
cbc.tdea (R154). -/

namespace Sys2Proof.Machine

/-- `CBC_E` over `k` blocks of `bs` bytes: each plaintext block is combined with the ciphertext block before
it, the first with the IV (R150). -/
def cbcEncrypt (enc : List Byte → List Byte) (bs : Nat) : Nat → List Byte → List Byte → List Byte
  | 0, _, _ => []
  | k + 1, prev, p =>
    let c := enc (xorBytes (p.take bs) prev)
    c ++ cbcEncrypt enc bs k c (p.drop bs)

/-- The pseudocode common to R153 and R154: key, IV and plaintext are read, the ciphertext is the result. -/
def cbcCompute (enc : List Byte → List Byte → List Byte) (bs srca len keyp keylen ivp : Nat)
    (m : Memory) : Except Fault Result := do
  let key ← memRead m keyp keylen
  let iv ← memRead m ivp bs
  let p ← memRead m srca len
  return ⟨cbcEncrypt (enc key) bs (len / bs) iv p, none⟩

/-- `cbc.aes` (R153): checks KEY_FORMAT, BLOCK_ALIGN, RANGE in that order. -/
def execCbcAes (dst srca len keyp keylen ivp : Nat) (s : State) : Host.Outcome State Fault Refusal :=
  runCommand
    [aesKeyError keylen, blockError Config.aesBlock len,
      rangeError (cbcOperands Config.aesBlock dst srca len keyp keylen ivp)]
    dst (cbcCompute aesEnc Config.aesBlock srca len keyp keylen ivp) s

/-- `cbc.tdea` (R154): checks KEY_FORMAT, BLOCK_ALIGN, RANGE in that order. -/
def execCbcTdea (dst srca len keyp keylen ivp : Nat) (s : State) : Host.Outcome State Fault Refusal :=
  runCommand
    [tdeaKeyError keylen, blockError Config.tdeaBlock len,
      rangeError (cbcOperands Config.tdeaBlock dst srca len keyp keylen ivp)]
    dst (cbcCompute tdeaEnc Config.tdeaBlock srca len keyp keylen ivp) s

end Sys2Proof.Machine
end

