-- ==== Sys2Proof/Machine/CmacSubkeys.lean ====
section
/-! DEFINITION. The CMAC subkey generator and its command cmac.sk (42_cmac_subkeys.md R200 to R204). -/

namespace Sys2Proof.Machine

/-- `dbl(X)`: shift left by one and, when the bit shifted out was 1, combine byte 15 with 0x87 (R201). -/
def doubled (x : List Byte) : List Byte :=
  let y := shl1Bytes x
  if droppedBit x then y.set 15 (y.getD 15 0x00#8 ^^^ Config.cmacRb) else y

/-- `L = AES_Enc(key, zeros(16))` (R202). -/
def cmacL (key : List Byte) : List Byte := aesEnc key (zeros Config.aesBlock)

/-- `K1 || K2` with K1 = dbl(L) and K2 = dbl(K1); L is not written (R200, R203). -/
def cmacSubkeys (key : List Byte) : List Byte :=
  let k1 := doubled (cmacL key)
  k1 ++ doubled k1

/-- The pseudocode of cmac.sk (R200); STATUS.C is not written (R203). -/
def cmacCompute (keyp keylen : Nat) (m : Memory) : Except Fault Result := do
  let key ← memRead m keyp keylen
  return ⟨cmacSubkeys key, none⟩

/-- `cmac.sk` (R200): checks KEY_FORMAT, then RANGE. -/
def execCmacSk (dst keyp keylen : Nat) (s : State) : Host.Outcome State Fault Refusal :=
  runCommand [aesKeyError keylen, rangeError (cmacOperands dst keyp keylen)] dst (cmacCompute keyp keylen) s

end Sys2Proof.Machine
end

