-- ==== Sys2Proof/Machine/Dispatch.lean ====
section
/-! DEFINITION. One arm per command: the completion step of a decoded command (60_exceptions.md R233). -/

namespace Sys2Proof.Machine

def exec (i : Instr) (s : State) : Host.Outcome State Fault Refusal :=
  match i with
  | .cbcAes dst srca len keyp keylen ivp => Sys2Proof.Machine.execCbcAes dst srca len keyp keylen ivp s
  | .cbcTdea dst srca len keyp keylen ivp => Sys2Proof.Machine.execCbcTdea dst srca len keyp keylen ivp s
  | .cmacSk dst keyp keylen => Sys2Proof.Machine.execCmacSk dst keyp keylen s
  | .xor dst srca srcb len => Sys2Proof.Machine.execXor dst srca srcb len s
  | .shl1 dst srca len => Sys2Proof.Machine.execShl1 dst srca len s
  | .pad dst srca len m => Sys2Proof.Machine.execPad dst srca len m s
  | .rev dst srca len => Sys2Proof.Machine.execRev dst srca len s
  | .copy dst srca len => Sys2Proof.Machine.execCopy dst srca len s

end Sys2Proof.Machine
end

