-- ==== Sys2Proof/Machine/Step.lean ====
section
/-! DEFINITION. One step of the machine: the next host transfer, reset edge or engine turn (00_scope.md R12,
20_memory.md R78), the engine's completion step (60_exceptions.md R233), and how a command is placed so that the next
step completes it. -/

namespace Sys2Proof.Machine

/-- `complete()` (R233): decode the stored command; a word that is no command fails with its code (R221, R222),
a command runs. -/
def complete (s : State) : Host.Outcome State Fault Refusal :=
  match decodeCommand s.command with
  | .error e => .next (s.commandFailed (decodeErrorKind e))
  | .ok i => exec i s

/-- A turn of the engine: its step is enabled exactly when a command is pending (R12, R233) and the block is
not held in reset (R260); otherwise nothing happens (R252). -/
def engineTurn (s : State) : Host.Outcome State Fault Refusal :=
  if s.rstN && s.status.busy then complete s else .next s

/-- A completed read: its effect and its answer (R61). -/
def hostRead (off : Offset) (s : State) : State :=
  let (s', rdata, err) := busRead off s
  { s' with response := .read rdata err }

/-- A completed write: its effect and its answer (R61). -/
def hostWrite (off : Offset) (w : Word) (s : State) : State :=
  let (s', err) := busWrite off w s
  { s' with response := .write err }

/-- `rst_n` driven to a level: the block takes its reset values (R260), and no transfer has been made since. A
release while `rst_n` is already 1, with no low level before it, resets the block all the same, a pending command
included: DESIGN CHOICE, notes/assumptions/20.md. -/
def driveReset (level : Bool) (s : State) : State :=
  { s.resetBlock with rstN := level, response := .noTransfer }

/-- One step of the environment's list. A bus transfer while `rst_n` = 0 has no meaning (R260, U16). -/
def takeInput (e : Input) (s : State) : Host.Outcome State Fault Refusal :=
  match e with
  | .read off => if s.rstN then .next (hostRead off s) else .refused .transferDuringReset
  | .write off w => if s.rstN then .next (hostWrite off w s) else .refused .transferDuringReset
  | .engineTurn => engineTurn s
  | .resetLow => .next (driveReset false s)
  | .resetHigh => .next (driveReset true s)

/-- One step: the first of the steps to come; with none left the engine has the turn (R78, R273). -/
def step (s : State) : Host.Outcome State Fault Refusal :=
  match s.inputs with
  | [] => engineTurn s
  | e :: rest => takeInput e { s with inputs := rest }

/-- The instruction with bits `w` placed where the next step runs it: its words in CMD and the operand
registers, START done (R230), `rst_n` high, and the engine's turn first of what is to come
(notes/assumptions/3.md). -/
def State.withFetchWord (s : State) (nbits w : Nat) : State :=
  { (s.withCommand (Command.ofWords (imageWords nbits w))).start with
    rstN := true
    inputs := .engineTurn :: s.inputs }

end Sys2Proof.Machine
end

