-- ==== Sys2Proof/Machine/Assembler.lean ====
section
/-! DEFINITION. The assembler's lines as the host transfers they expand to (30_encoding.md R102 to R107). They are
steps of the host, not of the block; State.inputs is where they stand. -/

namespace Sys2Proof.Machine

/-- `wr OFF, V` (R106). The bus carries 32 bits (R71): of a V of more than 32 bits, for which R103 names no
rejection, the low 32 are written. DESIGN CHOICE, notes/assumptions/19.md. -/
def wr (off : Offset) (v : Nat) : Input := .write off (BitVec.ofNat 32 v)

/-- `rd OFF` (R106). -/
def rd (off : Offset) : Input := .read off

/-- Step 1 of R104: one `wr` for each operand the command reads (R96), in the order SRCA, SRCB, DST, LEN,
KEYP, KEYLEN, IVP. -/
def operandTransfers : Instr → List Input
  | .cbcAes dst srca len keyp keylen ivp =>
    [wr 0x014 srca, wr 0x01C dst, wr 0x020 len, wr 0x024 keyp, wr 0x028 keylen, wr 0x02C ivp]
  | .cbcTdea dst srca len keyp keylen ivp =>
    [wr 0x014 srca, wr 0x01C dst, wr 0x020 len, wr 0x024 keyp, wr 0x028 keylen, wr 0x02C ivp]
  | .cmacSk dst keyp keylen => [wr 0x01C dst, wr 0x024 keyp, wr 0x028 keylen]
  | .xor dst srca srcb len => [wr 0x014 srca, wr 0x018 srcb, wr 0x01C dst, wr 0x020 len]
  | .shl1 dst srca len => [wr 0x014 srca, wr 0x01C dst, wr 0x020 len]
  | .pad dst srca len _ => [wr 0x014 srca, wr 0x01C dst, wr 0x020 len]
  | .rev dst srca len => [wr 0x014 srca, wr 0x01C dst, wr 0x020 len]
  | .copy dst srca len => [wr 0x014 srca, wr 0x01C dst, wr 0x020 len]

/-- Steps 1 to 3 of a command line: the operands, the command word, CTRL.START (R104). Step 4 is `poll`;
`runCommandLine` has all four. A line with a value that does not fit its field is rejected and has no transfers
(R103). -/
def commandTransfers (i : Instr) : List Input :=
  if i.wellFormed then operandTransfers i ++ [.write 0x010 i.cmdWord, .write 0x004 0x00000001#32] else []

/-- `n` reads of STATUS, what `poll` issues while BUSY stays 1 (R107); `poll` itself is in Machine/HostProgram. -/
def pollTransfers (n : Nat) : List Input := List.replicate n (rd 0x008)

/-- What `poll` makes of a value of STATUS (R107). -/
inductive PollResult where
  /-- BUSY is 1: read again. -/
  | again
  /-- The command has completed and ERR is 0. -/
  | success
  /-- The command has completed and ERR is 1; ERRCODE is reported. -/
  | failure (errcode : BitVec 4)
  deriving DecidableEq, Repr

/-- `poll`'s check of one value read from STATUS (R107). -/
def pollCheck (status : Word) : PollResult :=
  if status.getLsbD 0 then .again
  else if status.getLsbD 2 then .failure (status.extractLsb' 8 4)
  else .success

/-- The offset of WMEM word `j` (R66). R66 has words 0 to 63 only: from word 64 on, which an `ldb` or `rdb` past
the end of WMEM reaches, the 9-bit offset wraps to 0x000. DESIGN CHOICE, notes/assumptions/18.md. -/
def wmemOffset (j : Nat) : Offset := BitVec.ofNat 9 (0x100 + 4 * j)

/-- The WMEM words that the bytes A to A + n - 1 touch, in increasing order (R105). -/
def touchedWords (a n : Nat) : List Nat := if n = 0 then [] else List.range' (a / 4) ((a + n - 1) / 4 + 1 - a / 4)

/-- Lane `i` of word `j` is one of the bytes A to A + n - 1 (R105). -/
def laneCovered (a n j i : Nat) : Bool := decide (a ≤ 4 * j + i) && decide (4 * j + i < a + n)

/-- Word `j` with the covered lanes replaced by the bytes of the string, the other lanes as WMEM holds them
(R105). -/
def mergedWord (m : Memory) (a : Nat) (bs : List Byte) (j : Nat) : Word :=
  let lane (i : Nat) : Word :=
    (if laneCovered a bs.length j i then bs.getD (4 * j + i - a) 0x00#8 else m.read (4 * j + i)).setWidth 32
  lane 0 ||| (lane 1 <<< 8) ||| (lane 2 <<< 16) ||| (lane 3 <<< 24)

/-- The transfers of `ldb` for one word: a `wr` when every byte is written, else `rd` and then `wr` (R105). -/
def ldbWord (m : Memory) (a : Nat) (bs : List Byte) (j : Nat) : List Input :=
  let w : Input := .write (wmemOffset j) (mergedWord m a bs j)
  if laneCovered a bs.length j 0 && laneCovered a bs.length j 3 then [w] else [rd (wmemOffset j), w]

/-- `ldb A, HEX` (R105), given the WMEM that its reads see (notes/assumptions/16.md); past the end of WMEM as
`wmemOffset` says. -/
def ldbTransfers (m : Memory) (a : Nat) (bs : List Byte) : List Input :=
  (touchedWords a bs.length).flatMap (ldbWord m a bs)

/-- `rdb A, N`: the offsets it reads (R106); past the end of WMEM as `wmemOffset` says. -/
def rdbOffsets (a n : Nat) : List Offset := (touchedWords a n).map wmemOffset

/-- `rdb A, N`: the reads it issues (R106). `runRdb` runs them and keeps their answers. -/
def rdbTransfers (a n : Nat) : List Input := (rdbOffsets a n).map rd

/-- `rdb A, N`: the bytes it keeps of the words it read, those of the covered lanes (R106). -/
def rdbBytes (a n : Nat) (words : List Word) : List Byte :=
  ((words.flatMap laneBytes).drop (a % 4)).take n

end Sys2Proof.Machine
end

