-- ==== Sys2Proof/Machine/HostProgram.lean ====
section
/-! DEFINITION. The host running its lines against the block (30_encoding.md R104 to R107): runs of several
steps, `poll` with its repetition and its check, `rdb` with the bytes it keeps, and whole command lines. How many reads of STATUS `poll` makes
before the engine moves is the environment's (LATENCY, R273; notes/assumptions/2.md), so it is an argument. -/

namespace Sys2Proof.Machine

/-- `n` steps, stopping at the first fault or refusal. -/
def runSteps : Nat → State → Host.Outcome State Fault Refusal
  | 0, s => .next s
  | n + 1, s =>
    match step s with
    | .next t => runSteps n t
    | .fault f => .fault f
    | .refused r => .refused r

/-- The state after the steps of the list `is`, if the run gets there. -/
def runInputs (s : State) (is : List Input) : Host.Outcome State Fault Refusal :=
  runSteps is.length { s with inputs := is }

/-- A run that has come to a state, with what `poll` found there. -/
abbrev PollOutcome := Host.Outcome (State × PollResult) Fault Refusal

/-- What `poll` makes of the answer of its read (R107); an answer that is no read's is none of its own. -/
def pollAnswer : Response → PollResult
  | .read rdata _ => pollCheck rdata
  | .noTransfer | .write _ => .again

/-- One `rd 0x008` of `poll` and the check of the value read (R107). -/
def pollRead (s : State) : PollOutcome :=
  match runInputs s [rd 0x008#9] with
  | .next t => .next (t, pollAnswer t.response)
  | .fault f => .fault f
  | .refused r => .refused r

/-- `poll` (R107): `rd 0x008` is repeated until BUSY is read as 0, and then ERR is checked. The engine's turn
comes when `latency` reads have found BUSY = 1 (R273); a read that finds 0 ends `poll` before it. -/
def poll : Nat → State → PollOutcome
  | 0, s =>
    match runInputs s [.engineTurn] with
    | .next t => pollRead t
    | .fault f => .fault f
    | .refused r => .refused r
  | latency + 1, s =>
    match pollRead s with
    | .next (t, .again) => poll latency t
    | .next (t, .success) => .next (t, .success)
    | .next (t, .failure code) => .next (t, .failure code)
    | .fault f => .fault f
    | .refused r => .refused r

/-- The value a read returned, 0 where the answer is no read's. -/
def readData : Response → Word
  | .read rdata _ => rdata
  | .noTransfer | .write _ => 0#32

/-- Reads one after the other, with the value each returned (R106). -/
def runReads : List Offset → State → Host.Outcome (State × List Word) Fault Refusal
  | [], s => .next ({ s with inputs := [] }, [])
  | off :: rest, s =>
    match runInputs s [rd off] with
    | .next t =>
      match runReads rest t with
      | .next (u, words) => .next (u, readData t.response :: words)
      | .fault f => .fault f
      | .refused r => .refused r
    | .fault f => .fault f
    | .refused r => .refused r

/-- `rdb A, N` (R106): its word reads, and the bytes of the covered lanes of the values they returned. -/
def runRdb (a n : Nat) (s : State) : Host.Outcome (State × List Byte) Fault Refusal :=
  match runReads (rdbOffsets a n) s with
  | .next (t, words) => .next (t, rdbBytes a n words)
  | .fault f => .fault f
  | .refused r => .refused r

/-- One line of a host program (R102 to R107). -/
inductive Line where
  /-- A command mnemonic with its operands (R104). -/
  | command (i : Instr)
  /-- `ldb A, HEX` (R105). -/
  | ldb (a : Nat) (bs : List Byte)
  /-- `rdb A, N` (R106). -/
  | rdb (a n : Nat)
  /-- `wr OFF, V` (R106). -/
  | wr (off : Offset) (v : Nat)
  /-- `rd OFF` (R106). -/
  | rd (off : Offset)
  /-- `poll` on a line of its own (R107). -/
  | poll
  deriving DecidableEq, Repr

/-- The assembler accepts the line: every register operand and M of a command fit their fields. R103 names no
other value that is rejected. -/
def Line.accepted : Line → Bool
  | .command i => i.wellFormed
  | .ldb .. | .rdb .. | .wr .. | .rd .. | .poll => true

/-- What a line gives the host. -/
inductive LineResult where
  /-- The assembler rejects the line; no transfer is made (R103). -/
  | rejected
  /-- A line that only writes. -/
  | written
  /-- `rd`: the answer of its read. -/
  | answer (response : Response)
  /-- `rdb`: the bytes it keeps. -/
  | bytes (bs : List Byte)
  /-- A command or `poll`: what the poll found. -/
  | polled (result : PollResult)
  deriving DecidableEq, Repr

/-- A run that has come to a state, with something for the host; the something turned into a line's result. -/
def lineResult {α : Type} (f : State → α → LineResult) :
    Host.Outcome (State × α) Fault Refusal → Host.Outcome (State × LineResult) Fault Refusal
  | .next (t, x) => .next (t, f t x)
  | .fault e => .fault e
  | .refused r => .refused r

/-- A list of transfers, with nothing yet for the host. -/
def runTransfers (is : List Input) (s : State) : Host.Outcome (State × Unit) Fault Refusal :=
  match runInputs s is with
  | .next t => .next (t, ())
  | .fault f => .fault f
  | .refused r => .refused r

/-- A command line: rejected by the assembler if a value does not fit its field (R103), else its transfers up to
START, then step 4, the `poll` (R104). -/
def runCommandLine (latency : Nat) (i : Instr) (s : State) : Host.Outcome (State × LineResult) Fault Refusal :=
  if i.wellFormed then
    match runInputs s (commandTransfers i) with
    | .next t => lineResult (fun _ r => .polled r) (poll latency t)
    | .fault f => .fault f
    | .refused r => .refused r
  else .next (s, .rejected)

/-- A line run by the host; `latency` matters to a line that polls. -/
def runLine (latency : Nat) : Line → State → Host.Outcome (State × LineResult) Fault Refusal
  | .command i, s => runCommandLine latency i s
  | .ldb a bs, s => lineResult (fun _ _ => .written) (runTransfers (ldbTransfers s.wmem a bs) s)
  | .rdb a n, s => lineResult (fun _ bs => .bytes bs) (runRdb a n s)
  | .wr off v, s => lineResult (fun _ _ => .written) (runTransfers [Machine.wr off v] s)
  | .rd off, s => lineResult (fun t _ => .answer t.response) (runTransfers [Machine.rd off] s)
  | .poll, s => lineResult (fun _ r => .polled r) (Machine.poll latency s)

/-- A line after which a program that expects success goes on: every line but a rejected one and a poll that found
no success (R103, R107). -/
def LineResult.goesOn : LineResult → Bool
  | .polled r => r = .success
  | .rejected => false
  | .written | .answer _ | .bytes _ => true

/-- Lines run one after the other, each with its latency, and what they gave the host: the run stops after the line
whose `poll` reports a failure (R107). LATENCY is OPEN (R273): here the engine has its turn inside a `poll` only, so
after a raw `wr` of START the lines before the next `poll` find the command pending. DESIGN CHOICE,
notes/assumptions/22.md. -/
def runLines : List (Line × Nat) → State → Host.Outcome (State × List LineResult) Fault Refusal
  | [], s => .next (s, [])
  | (line, latency) :: rest, s =>
    match runLine latency line s with
    | .next (t, r) =>
      if r.goesOn then
        match runLines rest t with
        | .next (u, results) => .next (u, r :: results)
        | .fault f => .fault f
        | .refused e => .refused e
      else .next (t, [r])
    | .fault f => .fault f
    | .refused e => .refused e

/-- A program that expects every command to succeed. The assembler works before the program runs: one that holds a
line it rejects makes no transfer at all (R103). DESIGN CHOICE, notes/assumptions/21.md. -/
def runProgram (program : List (Line × Nat)) (s : State) : Host.Outcome (State × List LineResult) Fault Refusal :=
  if program.all fun l => l.1.accepted then runLines program s else .next (s, [.rejected])

end Sys2Proof.Machine
end

