-- ==== Sys2Proof/Safety.lean ====
section
/-! DEFINITION. The terms the statements use: the invariant that every step keeps, when the engine moves, the
outcomes a safe step may have, and which host transfers leave a pending command alone. -/

namespace Sys2Proof.Machine

/-- What holds of the block at reset and after every step. -/
structure Inv (s : State) : Prop where
  /-- WMEM's list is canonical and stays inside 0x00 to 0xFF (R43). -/
  wmem_wf : s.wmem.wf = true
  /-- Codes 6 to 15 are never produced (R39, U4). -/
  errcode_known : s.status.errcode.toNat ≤ 5
  /-- While a command is pending, DONE, ERR and ERRCODE are as START left them (R230, R70). -/
  busy_clear : s.status.busy = true → s.status.done = false ∧ s.status.err = false ∧ s.status.errcode = 0#4
  /-- ERR is set only together with a code (R36, R39, R233). -/
  err_has_code : s.status.err = true → s.status.errcode ≠ 0#4
  /-- A code in ERRCODE means the last command failed, and then RLEN is 0 (R42, R231). -/
  failed_rlen : s.status.errcode ≠ 0#4 → s.rlen = 0#9
  /-- A result lies inside WMEM, so its length is at most 256 (R226, R42). -/
  rlen_bound : s.rlen.toNat ≤ Config.wmemBytes
  /-- While `rst_n` is 0 the block holds its reset values (R260). -/
  held_in_reset : s.rstN = false → s = { s.resetBlock with response := .noTransfer }

/-- The host may use the block: `rst_n` is released and no command is pending (R252, R260). -/
abbrev State.idle (s : State) : Prop := s.rstN = true ∧ s.status.busy = false

/-- A command is pending: `rst_n` is released and BUSY is 1 (R34). -/
abbrev State.pending (s : State) : Prop := s.rstN = true ∧ s.status.busy = true

/-- The engine has the turn: its turn is named next, or no step is left to come (R12, R273;
notes/assumptions/2.md). -/
abbrev State.engineMoves (s : State) : Prop := s.inputs = [] ∨ ∃ rest, s.inputs = .engineTurn :: rest

/-- A host transfer that cannot remove the pending command: any read, and any write but a soft reset (R70). -/
def Input.quiet : Input → Bool
  | .read _ => true
  | .write off w => !(off = 0x004#9 && w.getLsbD 1)
  | _ => false

/-- The states that differ at most in what host accesses during BUSY change: ACCERR, and the answer of the
last transfer (R70). -/
abbrev State.sameButAccess (s t : State) : Prop :=
  s = { t with status := { t.status with accerr := s.status.accerr }, response := s.response }

/-- A step may go on, or refuse a bus transfer made while `rst_n` = 0 (U16). -/
def safeOutcome : Host.Outcome State Fault Refusal → Prop
  | .next _ => True
  | .fault _ => False
  | .refused r => r = .transferDuringReset

/-- A command that failed with a code, written out field by field: RLEN 0, BUSY 0, DONE 1, ERR 1, ERRCODE the
code, and nothing else (R231, R233). -/
def failedState (s : State) (code : BitVec 4) : State :=
  { s with
    rlen := 0#9
    status := { s.status with busy := false, done := true, err := true, errcode := code } }

/-- From `s` to `t` a command stored `n` bytes at `dst` and completed: besides WMEM only RLEN, BUSY, DONE and,
where `carry` is not the old one, C differ, and every byte outside the result is as before (R233). -/
def completedFrom (s t : State) (dst n : Nat) (carry : Bool) : Prop :=
  t = { s with
        wmem := t.wmem
        rlen := BitVec.ofNat 9 n
        status := { s.status with busy := false, done := true, c := carry } } ∧
  ∀ a, ¬(dst ≤ a ∧ a < dst + n) → t.wmem.read a = s.wmem.read a

/-- The table of R225: the operands of an instruction that are checked for range, as (pointer, length). -/
def Instr.operandRow : Instr → List (Nat × Nat)
  | .cbcAes dst srca len keyp keylen ivp => [(srca, len), (dst, len), (keyp, keylen), (ivp, 16)]
  | .cbcTdea dst srca len keyp keylen ivp => [(srca, len), (dst, len), (keyp, keylen), (ivp, 8)]
  | .cmacSk dst keyp keylen => [(keyp, keylen), (dst, 32)]
  | .xor dst srca srcb len => [(srca, len), (srcb, len), (dst, len)]
  | .shl1 dst srca len => [(srca, len), (dst, len)]
  | .pad dst srca len m => [(srca, len), (dst, padLength len m)]
  | .rev dst srca len => [(srca, len), (dst, len)]
  | .copy dst srca len => [(srca, len), (dst, len)]

/-- Some operand of the row extends past WMEM (R226). -/
def Instr.outOfRange (i : Instr) : Prop := ∃ o ∈ Instr.operandRow i, 256 < o.1 + o.2

/-- The key length is one the command accepts (R155, R156); a command without a key accepts. -/
def Instr.keyAccepted : Instr → Prop
  | .cbcAes _ _ _ _ keylen _ => keylen = 16 ∨ keylen = 24
  | .cbcTdea _ _ _ _ keylen _ => keylen = 24
  | .cmacSk _ _ keylen => keylen = 16 ∨ keylen = 24
  | .xor .. | .shl1 .. | .pad .. | .rev .. | .copy .. => True

/-- LEN is a non-zero multiple of the block size, for the CBC commands (R151); the others accept any. -/
def Instr.lengthAccepted : Instr → Prop
  | .cbcAes _ _ len _ _ _ => len ≠ 0 ∧ len % 16 = 0
  | .cbcTdea _ _ len _ _ _ => len ≠ 0 ∧ len % 8 = 0
  | .cmacSk .. | .xor .. | .shl1 .. | .pad .. | .rev .. | .copy .. => True

/-- The operand registers a command reads (R96). -/
def Instr.reads : Instr → Register → Bool
  | .cbcAes .. | .cbcTdea .. => fun r =>
    [Register.srca, Register.dst, Register.len, Register.keyp, Register.keylen, Register.ivp].contains r
  | .cmacSk .. => fun r => [Register.dst, Register.keyp, Register.keylen].contains r
  | .xor .. => fun r => [Register.srca, Register.srcb, Register.dst, Register.len].contains r
  | .shl1 .. | .pad .. | .rev .. | .copy .. => fun r =>
    [Register.srca, Register.dst, Register.len].contains r

/-- The operand registers (R21). -/
def operandRegisters : List Register := [.srca, .srcb, .dst, .len, .keyp, .keylen, .ivp]

/-- The offsets of the operand registers (R64). -/
def operandOffsets : List Offset :=
  [0x014#9, 0x018#9, 0x01C#9, 0x020#9, 0x024#9, 0x028#9, 0x02C#9]

/-- The code of the first check of R228 that fails for the command the registers hold, 0 if none does: read off
the registers as R221 to R226 state the checks, without the decoder. -/
def firstFailingCode (s : State) : BitVec 4 :=
  let op := s.cmd.op.toNat
  let alg := s.cmd.alg.toNat
  let len := s.len.toNat
  let keylen := s.keylen.toNat
  let bs := if alg = 0 then 16 else 8
  let row : List (Nat × Nat) :=
    if op = 0x01 then
      [(s.srca.toNat, len), (s.dst.toNat, len), (s.keyp.toNat, keylen), (s.ivp.toNat, bs)]
    else if op = 0x02 then [(s.keyp.toNat, keylen), (s.dst.toNat, 32)]
    else if op = 0x10 then [(s.srca.toNat, len), (s.srcb.toNat, len), (s.dst.toNat, len)]
    else if op = 0x12 then [(s.srca.toNat, len), (s.dst.toNat, padLength len s.cmd.imm.toNat)]
    else [(s.srca.toNat, len), (s.dst.toNat, len)]
  if ¬(op = 0x01 ∨ op = 0x02 ∨ (0x10 ≤ op ∧ op ≤ 0x14)) then 1#4
  else if (op = 0x01 ∧ 2 ≤ alg) ∨ (op = 0x02 ∧ 1 ≤ alg) then 2#4
  else if (op = 0x01 ∨ op = 0x02) ∧ ¬(keylen = 24 ∨ (keylen = 16 ∧ alg = 0)) then 3#4
  else if op = 0x01 ∧ (len = 0 ∨ len % bs ≠ 0) then 4#4
  else if row.any (fun o => 256 < o.1 + o.2) then 5#4
  else 0#4

end Sys2Proof.Machine
end

