-- ==== Sys2Proof/Certificates/Slice0/Obligations.lean ====
section
/-! DEFINITION. The statements for the provers, from the numbered rules of spec/. A premise `s.wmem.wf = true`
asks that WMEM's list is canonical; `Obligations.EveryStepKeepsTheInvariant` and
`Obligations.ResetMeetsTheInvariant` say that it is in every state a run reaches.
The list of steps to come, `State.inputs`, and the engine's turn when it is empty are the model's own way to give
the environment's choices (notes/assumptions/1.md and 2.md): a statement quantifies over every list. `State.response`
holds what the last transfer answered, as R61 defines it
(notes/assumptions/4.md). Where a statement rests on a choice of the model, its docstring names the log entry. -/

open Sys2Proof Sys2Proof.Machine

/-! ### Encoding -/

/-- Decoding the words of any instruction whose operands fit their fields gives the instruction back, for all
eight commands (R91, R95, R97, R103, R104). Which word of the list is which operand register is the model's choice
(notes/assumptions/9.md). -/
def Obligations.DecodeOfEncodeIsTheInstruction : Prop :=
  ∀ i : Instr, i.wellFormed = true → decode (encode i) = .ok i

/-- Whatever words are decoded, the instruction's operands fit their fields (R93, R101). -/
def Obligations.DecodedInstructionIsWellFormed : Prop :=
  ∀ (ws : List Word) (i : Instr), decode ws = .ok i → i.wellFormed = true

/-- The fields and registers a command ignores do not reach the decoder's answer: commands that agree on what
R96 marks "yes" decode alike, legal or not (R92, R93, R96, R99). -/
def Obligations.IgnoredFieldsDoNotMatter : Prop :=
  ∀ c d : Command, c.cmd.op = d.cmd.op →
    (c.cmd.op = 0x01#8 ∨ c.cmd.op = 0x02#8 → c.cmd.alg = d.cmd.alg) →
    (c.cmd.op = 0x12#8 → c.cmd.imm = d.cmd.imm) →
    c.dst = d.dst →
    (c.cmd.op ≠ 0x02#8 → c.srca = d.srca ∧ c.len = d.len) →
    (c.cmd.op = 0x10#8 → c.srcb = d.srcb) →
    (c.cmd.op = 0x01#8 ∨ c.cmd.op = 0x02#8 → c.keyp = d.keyp ∧ c.keylen = d.keylen) →
    (c.cmd.op = 0x01#8 → c.ivp = d.ivp) →
    decodeCommand c = decodeCommand d

/-- One word of each command, written out bit by bit from R91 and R95, or taken from R108, and four words that
are no command. That the words after the command word are the operand registers in window order, and that a missing
word is 0, is the model's choice (notes/assumptions/9.md). -/
def Obligations.WordsDecodeToTheirCommands : Prop :=
  decode [0x00000001#32, 0x020#32, 0x000#32, 0x060#32, 0x020#32, 0x000#32, 0x010#32, 0x010#32] =
      .ok (.cbcAes 0x60 0x20 32 0x00 16 0x10) ∧
  decode [0x00000101#32, 0x038#32, 0x000#32, 0x040#32, 0x008#32, 0x010#32, 0x018#32, 0x028#32] =
      .ok (.cbcTdea 0x40 0x38 8 0x10 24 0x28) ∧
  decode [0x00000002#32, 0x000#32, 0x000#32, 0x040#32, 0x000#32, 0x000#32, 0x010#32, 0x000#32] =
      .ok (.cmacSk 0x40 0x00 16) ∧
  decode [0xFFFF0710#32, 0x030#32, 0x050#32, 0x030#32, 0x010#32] = .ok (.xor 0x30 0x30 0x50 16) ∧
  decode [0x00000011#32, 0x005#32, 0x000#32, 0x006#32, 0x007#32] = .ok (.shl1 6 5 7) ∧
  decode [0x00200012#32, 0x020#32, 0x000#32, 0x020#32, 0x013#32] = .ok (.pad 0x20 0x20 19 32) ∧
  decode [0x00000013#32, 0x028#32, 0x000#32, 0x028#32, 0x003#32] = .ok (.rev 0x28 0x28 3) ∧
  decode [0x00000014#32, 0x001#32, 0x000#32, 0x002#32, 0x1FF#32] = .ok (.copy 2 1 511) ∧
  decode [0x00000000#32] = .error .illegalOp ∧
  decode [0x000005FF#32] = .error .illegalOp ∧
  decode [0x00000201#32] = .error .badAlg ∧
  decode [0x00000102#32] = .error .badAlg

/-! ### The step -/

/-- A step at which the engine has the turn, with a command pending, is the completion step on the state with that
turn taken from the steps to come, and so `exec` of the decoded command (R12, R233). That an empty list gives the
engine the turn is the model's choice (notes/assumptions/2.md). -/
def Obligations.StepRunsTheDecodedCommand : Prop :=
  ∀ s : State, s.pending → s.engineMoves →
    step s = complete { s with inputs := s.inputs.tail } ∧
    ∀ i : Instr, decodeCommand s.command = .ok i → step s = exec i { s with inputs := s.inputs.tail }

/-- ILLEGAL_OP: the completion of a command word whose OP is in no row of the map fails with code 1 and does
nothing else, whatever ALG, IMM and the operand registers hold (R221). -/
def Obligations.UnmappedOpFailsWithCodeOne : Prop :=
  ∀ s : State, s.cmd.op ∉ [0x01#8, 0x02#8, 0x10#8, 0x11#8, 0x12#8, 0x13#8, 0x14#8] →
    complete s = .next (failedState s 1#4)

/-- BAD_ALG: the completion of OP 0x01 with ALG 2 to 7 and of OP 0x02 with ALG 1 to 7 fails with code 2, whatever
the operands (R222). -/
def Obligations.UnsupportedAlgFailsWithCodeTwo : Prop :=
  ∀ s : State, ((s.cmd.op = 0x01#8 ∧ 2 ≤ s.cmd.alg.toNat) ∨ (s.cmd.op = 0x02#8 ∧ 1 ≤ s.cmd.alg.toNat)) →
    complete s = .next (failedState s 2#4)

/-! ### What each command does when its checks pass -/

/-- xor: byte i of the result is A[i] ^ B[i], for any overlap of the operands; RLEN is the length, C is kept
(R120, R72, R83). -/
def Obligations.XorStoresTheBytewiseXor : Prop :=
  ∀ (s : State) (dst srca srcb len : Nat), s.wmem.wf = true →
    srca + len ≤ 256 → srcb + len ≤ 256 → dst + len ≤ 256 →
    ∃ t, exec (.xor dst srca srcb len) s = .next t ∧ completedFrom s t dst len s.status.c ∧
      ∀ i < len, t.wmem.read (dst + i) = s.wmem.read (srca + i) ^^^ s.wmem.read (srcb + i)

/-- shl1: the result read big-endian is twice the operand modulo 2^(8n), and C is the bit dropped, 0 of an empty
operand (R130, R131, R132). -/
def Obligations.Shl1StoresTheShiftAndTheCarry : Prop :=
  ∀ (s : State) (dst srca len : Nat), s.wmem.wf = true → srca + len ≤ 256 → dst + len ≤ 256 →
    ∃ t, exec (.shl1 dst srca len) s = .next t ∧
      completedFrom s t dst len (decide (len ≠ 0) && (s.wmem.read srca).getLsbD 7) ∧
      intBe (t.wmem.bytes dst len) = 2 * intBe (s.wmem.bytes srca len) % 2 ^ (8 * len)

/-- pad: the operand's bytes, then zero bytes up to the padded length, which RLEN holds (R140, R141). -/
def Obligations.PadStoresTheOperandAndZeros : Prop :=
  ∀ (s : State) (dst srca len m : Nat), s.wmem.wf = true → srca + len ≤ 256 →
    dst + padLength len m ≤ 256 →
    ∃ t, exec (.pad dst srca len m) s = .next t ∧ completedFrom s t dst (padLength len m) s.status.c ∧
      (∀ i < len, t.wmem.read (dst + i) = s.wmem.read (srca + i)) ∧
      ∀ i, len ≤ i → i < padLength len m → t.wmem.read (dst + i) = 0x00#8

/-- rev: byte i of the result is A[n-1-i], in place or not (R145). -/
def Obligations.RevStoresTheBytesReversed : Prop :=
  ∀ (s : State) (dst srca len : Nat), s.wmem.wf = true → srca + len ≤ 256 → dst + len ≤ 256 →
    ∃ t, exec (.rev dst srca len) s = .next t ∧ completedFrom s t dst len s.status.c ∧
      ∀ i < len, t.wmem.read (dst + i) = s.wmem.read (srca + (len - 1 - i))

/-- copy: the bytes of the source as they were, for overlap in either direction (R148). -/
def Obligations.CopyStoresTheSourceBytes : Prop :=
  ∀ (s : State) (dst srca len : Nat), s.wmem.wf = true → srca + len ≤ 256 → dst + len ≤ 256 →
    ∃ t, exec (.copy dst srca len) s = .next t ∧ completedFrom s t dst len s.status.c ∧
      ∀ i < len, t.wmem.read (dst + i) = s.wmem.read (srca + i)

/-- cbc.aes: block j of the result is AES_Enc of plaintext block j combined with ciphertext block j-1, the
first with the IV; key, IV and plaintext are read before anything is written (R150, R153). -/
def Obligations.CbcAesStoresTheChainedBlocks : Prop :=
  ∀ (s : State) (dst srca len keyp keylen ivp : Nat), s.wmem.wf = true →
    (keylen = 16 ∨ keylen = 24) → len ≠ 0 → len % 16 = 0 →
    srca + len ≤ 256 → dst + len ≤ 256 → keyp + keylen ≤ 256 → ivp + 16 ≤ 256 →
    ∃ t, exec (.cbcAes dst srca len keyp keylen ivp) s = .next t ∧ completedFrom s t dst len s.status.c ∧
      ∀ j < len / 16,
        t.wmem.bytes (dst + 16 * j) 16 =
          aesEnc (s.wmem.bytes keyp keylen)
            (xorBytes (s.wmem.bytes (srca + 16 * j) 16)
              (if j = 0 then s.wmem.bytes ivp 16 else t.wmem.bytes (dst + 16 * (j - 1)) 16))

/-- cbc.tdea: as cbc.aes, with TDEA_Enc, a 24-byte key and blocks of 8 bytes (R150, R154). -/
def Obligations.CbcTdeaStoresTheChainedBlocks : Prop :=
  ∀ (s : State) (dst srca len keyp keylen ivp : Nat), s.wmem.wf = true →
    keylen = 24 → len ≠ 0 → len % 8 = 0 →
    srca + len ≤ 256 → dst + len ≤ 256 → keyp + keylen ≤ 256 → ivp + 8 ≤ 256 →
    ∃ t, exec (.cbcTdea dst srca len keyp keylen ivp) s = .next t ∧ completedFrom s t dst len s.status.c ∧
      ∀ j < len / 8,
        t.wmem.bytes (dst + 8 * j) 8 =
          tdeaEnc (s.wmem.bytes keyp keylen)
            (xorBytes (s.wmem.bytes (srca + 8 * j) 8)
              (if j = 0 then s.wmem.bytes ivp 8 else t.wmem.bytes (dst + 8 * (j - 1)) 8))

/-- cmac.sk: K1 = dbl(AES_Enc(key, zeros)) at DST and K2 = dbl(K1) at DST + 16, each doubling the shift of R130
with 0x87 combined into its last byte when bit 7 of the first byte was 1; nothing else is written and C is kept
(R200, R201, R202, R203). -/
def Obligations.CmacSkStoresBothSubkeys : Prop :=
  ∀ (s : State) (dst keyp keylen : Nat), s.wmem.wf = true → (keylen = 16 ∨ keylen = 24) →
    keyp + keylen ≤ 256 → dst + 32 ≤ 256 →
    ∃ t, exec (.cmacSk dst keyp keylen) s = .next t ∧ completedFrom s t dst 32 s.status.c ∧
      let dbl (x y : List Byte) : Prop :=
        intBe y = (2 * intBe x % 2 ^ 128) ^^^ (if 2 ^ 127 ≤ intBe x then 0x87 else 0)
      dbl (aesEnc (s.wmem.bytes keyp keylen) (List.replicate 16 0x00#8)) (t.wmem.bytes dst 16) ∧
      dbl (t.wmem.bytes dst 16) (t.wmem.bytes (dst + 16) 16)

/-! ### Where a command fails -/

/-- KEY_FORMAT: a key length the cipher does not accept fails with code 3, whatever the other operands, and so
before any check of LEN or of a range (R155, R156, R223, R228). -/
def Obligations.WrongKeyLengthFailsWithCodeThree : Prop :=
  ∀ (i : Instr) (s : State), ¬Instr.keyAccepted i → exec i s = .next (failedState s 3#4)

/-- BLOCK_ALIGN: with an accepted key length, a CBC command whose LEN is 0 or no multiple of the block size
fails with code 4, whatever its pointers (R151, R224, R228). -/
def Obligations.UnalignedLengthFailsWithCodeFour : Prop :=
  ∀ (i : Instr) (s : State), Instr.keyAccepted i → ¬Instr.lengthAccepted i →
    exec i s = .next (failedState s 4#4)

/-- RANGE: with key and length accepted, a command one of whose operands extends past WMEM fails with code 5;
the sums are exact, so an empty operand fails from 257 on (R225, R226). -/
def Obligations.OutOfRangeOperandFailsWithCodeFive : Prop :=
  ∀ (i : Instr) (s : State), Instr.keyAccepted i → Instr.lengthAccepted i → Instr.outOfRange i →
    exec i s = .next (failedState s 5#4)

/-- The completion step of any command: the first check of R228 that fails gives the code, and with no
failing check the command succeeds, ERR and ERRCODE as START left them (R228, R231, R233). -/
def Obligations.CompletionReportsTheFirstFailingCheck : Prop :=
  ∀ s : State,
    (firstFailingCode s ≠ 0#4 → complete s = .next (failedState s (firstFailingCode s))) ∧
    (firstFailingCode s = 0#4 → ∃ t, complete s = .next t ∧
      t.status = { s.status with busy := false, done := true, c := t.status.c } ∧
      t.rlen.toNat ≤ 256)

/-- No partial results: a completion that sets ERR writes no byte of WMEM, leaves C, and sets RLEN to 0 (R231). -/
def Obligations.FailedCommandWritesNothing : Prop :=
  ∀ s t : State, complete s = .next t → s.status.err = false → t.status.err = true →
    t.wmem = s.wmem ∧ t.status.c = s.status.c ∧ t.rlen = 0#9

/-- The engine's column of R48: a completion changes no operand register, CMD, IE or ACCERR, clears BUSY and
sets DONE, so that irq is then DONEIE (R21, R44, R48, R236). -/
def Obligations.CompletionLeavesTheHostsRegisters : Prop :=
  ∀ s t : State, complete s = .next t →
    t.command = s.command ∧ t.ie = s.ie ∧ t.status.accerr = s.status.accerr ∧
    t.status.busy = false ∧ t.status.done = true ∧ t.irq = s.ie ∧
    t.rstN = s.rstN ∧ t.inputs = s.inputs ∧ t.response = s.response

/-- No command but a shl1 whose operands lie inside WMEM changes STATUS.C, and it makes C bit 7 of the first source
byte, or 0 of an empty operand; of all steps, only the completion of such a pending shl1, a soft reset and `rst_n`
change C, the resets to 0 (R37, R131). -/
def Obligations.OnlyShl1AndResetsChangeTheCarry : Prop :=
  (∀ (i : Instr) (s t : State), exec i s = .next t → t.status.c ≠ s.status.c →
    ∃ dst srca len, i = .shl1 dst srca len ∧ srca + len ≤ 256 ∧ dst + len ≤ 256 ∧
      t.status.c = (decide (len ≠ 0) && (s.wmem.read srca).getLsbD 7)) ∧
  ∀ s t : State, step s = .next t → t.status.c ≠ s.status.c →
    (s.pending ∧ s.engineMoves ∧ s.cmd.op = 0x11#8 ∧ firstFailingCode s = 0#4 ∧
      t.status.c = (decide (s.len ≠ 0#9) && (s.wmem.read s.srca.toNat).getLsbD 7)) ∨
    (t.status.c = false ∧
      ((∃ w rest, s.inputs = .write 0x004#9 w :: rest ∧ w.getLsbD 1 = true) ∨
        (∃ rest, s.inputs = .resetLow :: rest) ∨ ∃ rest, s.inputs = .resetHigh :: rest))

/-! ### Laws of the byte functions -/

/-- The arithmetic of the shift: twice the operand is the carry times 2^(8n) plus the result (R132). -/
def Obligations.Shl1ArithmeticLaw : Prop :=
  ∀ a : List Byte, a ≠ [] →
    intBe (shl1Bytes a) = 2 * intBe a % 2 ^ (8 * a.length) ∧
    (droppedBit a).toNat = intBe a / 2 ^ (8 * a.length - 1) ∧
    intBe a * 2 = (droppedBit a).toNat * 2 ^ (8 * a.length) + intBe (shl1Bytes a)

/-- The laws of XOR on strings of equal length, and that it is bitwise (R122). -/
def Obligations.XorLaws : Prop :=
  ∀ a b c : List Byte, a.length = b.length → b.length = c.length →
    xorBytes a a = zeros a.length ∧ xorBytes a (zeros a.length) = a ∧ xorBytes a b = xorBytes b a ∧
    xorBytes (xorBytes a b) c = xorBytes a (xorBytes b c) ∧ xorBytes a (xorBytes a b) = b ∧
    ∀ i < a.length, ∀ k < 8,
      ((xorBytes a b).getD i 0x00#8).getLsbD k =
        ((a.getD i 0x00#8).getLsbD k ^^ (b.getD i 0x00#8).getLsbD k)

/-- rev twice with the same length gives back the original bytes, and in place the whole of WMEM (R146). -/
def Obligations.RevTwiceRestoresTheBytes : Prop :=
  ∀ (s : State) (a b c len : Nat), s.wmem.wf = true →
    a + len ≤ 256 → b + len ≤ 256 → c + len ≤ 256 →
    ∃ t u, exec (.rev b a len) s = .next t ∧ exec (.rev c b len) t = .next u ∧
      (∀ i < len, u.wmem.read (c + i) = s.wmem.read (a + i)) ∧
      (a = b → b = c → u.wmem = s.wmem)

/-- The padded length is the smallest multiple of m that is not below n, at most m - 1 above it, and 765 at
most; m = 0 and n = 0 leave the length (R140, R141). -/
def Obligations.PadLengthIsTheSmallestMultiple : Prop :=
  ∀ n m : Nat,
    padLength n 0 = n ∧ padLength 0 m = 0 ∧
    (0 < m → m ∣ padLength n m ∧ n ≤ padLength n m ∧ padLength n m - n ≤ m - 1 ∧
      ∀ k, n ≤ k → m ∣ k → padLength n m ≤ k) ∧
    (n ≤ 511 → m ≤ 255 → padLength n m ≤ 765)

/-- Continuing a CBC stream: a second pass whose IV is the last ciphertext block of the first gives what one
pass over both plaintexts gives (R150, R152). -/
def Obligations.CbcStreamContinuesFromItsLastBlock : Prop :=
  ∀ (enc : List Byte → List Byte) (bs j k : Nat) (iv p q : List Byte),
    (∀ x, (enc x).length = bs) → p.length = (j + 1) * bs →
    cbcEncrypt enc bs (j + 1 + k) iv (p ++ q) =
      cbcEncrypt enc bs (j + 1) iv p ++
        cbcEncrypt enc bs k ((cbcEncrypt enc bs (j + 1) iv p).drop (j * bs)) q

/-! ### The ciphers -/

/-- SBOX[a] is the multiplicative inverse of a in GF(2^8), 0 for 0, followed by the affine map (R162). -/
def Obligations.SboxIsTheAffineMapOfTheInverse : Prop :=
  ∀ a : Byte, ∃ b : Byte, (a = 0x00#8 → b = 0x00#8) ∧ (a ≠ 0x00#8 → gfMul a b = 0x01#8) ∧
    sbox a = b ^^^ b.rotateLeft 1 ^^^ b.rotateLeft 2 ^^^ b.rotateLeft 3 ^^^ b.rotateLeft 4 ^^^ 0x63#8

/-- Byte i of a block is row i mod 4, column i / 4 of the state, and the state is read out the same way; SubBytes,
ShiftRows, MixColumns and AddRoundKey as their rules give each entry of the state (R161, R162, R163, R164, R165). -/
def Obligations.AesStateLayoutAndRoundOperations : Prop :=
  (∀ block : List Byte, block.length = 16 →
    (∀ i < 16, (AesState.ofBytes block).entry (i % 4) (i / 4) = block.getD i 0x00#8) ∧
    (AesState.ofBytes block).toBytes = block) ∧
  ∀ (s : AesState) (w : List Column) (rnd c : Nat), c < 4 →
    (∀ r < 4, s.subBytes.entry r c = sbox (s.entry r c) ∧
      s.shiftRows.entry r c = s.entry r ((c + r) % 4) ∧
      (s.addRoundKey w rnd).entry r c = s.entry r c ^^^ (w.getD (4 * rnd + c) Column.zero).row r) ∧
    let a := fun r => s.entry r c
    s.mixColumns.entry 0 c = xtime (a 0) ^^^ (xtime (a 1) ^^^ a 1) ^^^ a 2 ^^^ a 3 ∧
    s.mixColumns.entry 1 c = a 0 ^^^ xtime (a 1) ^^^ (xtime (a 2) ^^^ a 2) ^^^ a 3 ∧
    s.mixColumns.entry 2 c = a 0 ^^^ a 1 ^^^ xtime (a 2) ^^^ (xtime (a 3) ^^^ a 3) ∧
    s.mixColumns.entry 3 c = (xtime (a 0) ^^^ a 0) ^^^ a 1 ^^^ a 2 ^^^ xtime (a 3)

/-- The words of the key schedule: the key's own, then the recurrence over the words before; 44 words for a
16-byte key and 52 for a 24-byte key (R160, R166). -/
def Obligations.KeyScheduleRecurrence : Prop :=
  ∀ key : List Byte, key.length = 16 ∨ key.length = 24 →
    let nk := key.length / 4
    let w := fun i => (keyExpansion key).getD i Column.zero
    (keyExpansion key).length = 4 * (nk + 6 + 1) ∧
    (∀ i < nk, (w i).toBytes = (key.drop (4 * i)).take 4) ∧
    ∀ i, nk ≤ i → i < 4 * (nk + 6 + 1) →
      w i = (w (i - nk)).xor
        (if i % nk = 0 then
          ((w (i - 1)).rot.sub).xor ⟨roundConstant (i / nk), 0x00#8, 0x00#8, 0x00#8⟩
        else w (i - 1))

/-- The check values of the ciphers: AES-128, AES-192 and DES, one block each (R168, R176). -/
def Obligations.CipherCheckValues : Prop :=
  aesEnc (bytesBe 0x000102030405060708090A0B0C0D0E0F 16) (bytesBe 0x00112233445566778899AABBCCDDEEFF 16) =
    bytesBe 0x69C4E0D86A7B0430D8CDB78070B4C55A 16 ∧
  aesEnc (bytesBe 0x000102030405060708090A0B0C0D0E0F1011121314151617 24)
      (bytesBe 0x00112233445566778899AABBCCDDEEFF 16) =
    bytesBe 0xDDA97CA4864CDFE06EAF70A0EC0D7191 16 ∧
  desEnc 0x133457799BBCDFF1#64 0x0123456789ABCDEF#64 = 0x85E813540F0AB405#64

/-- FP is the inverse of IP, on every block (R172). -/
def Obligations.FinalPermutationInvertsTheInitial : Prop :=
  ∀ x : BitVec 64,
    permute 64 64 fpTable (permute 64 64 ipTable x) = x ∧
    permute 64 64 ipTable (permute 64 64 fpTable x) = x

/-- DES_Dec undoes DES_Enc under the same key, and DES_Enc undoes DES_Dec (R172 to R177). -/
def Obligations.DesDecryptionInvertsEncryption : Prop :=
  ∀ k x : BitVec 64, desDec k (desEnc k x) = x ∧ desEnc k (desDec k x) = x

/-- TDEA encrypts with the first key part, decrypts with the second and encrypts with the third; with three equal
parts it is single DES, and with K3 = K1 two-key 3DES (R170, R180, R181). -/
def Obligations.TdeaAppliesItsKeyPartsInOrder : Prop :=
  ∀ k1 k2 k3 x : List Byte, k1.length = 8 → k2.length = 8 → k3.length = 8 → x.length = 8 →
    tdeaEnc (k1 ++ k2 ++ k3) x =
      desBytesOf (desEnc (desBlockOf k3) (desDec (desBlockOf k2) (desEnc (desBlockOf k1) (desBlockOf x)))) ∧
    tdeaEnc (k1 ++ k1 ++ k1) x = desBytesOf (desEnc (desBlockOf k1) (desBlockOf x)) ∧
    tdeaEnc (k1 ++ k2 ++ k1) x =
      desBytesOf (desEnc (desBlockOf k1) (desDec (desBlockOf k2) (desEnc (desBlockOf k1) (desBlockOf x))))

/-- Parity bits do not reach the key schedule: keys that agree on every bit but 8, 16, ..., 64 encrypt and
decrypt alike (R173, R182). -/
def Obligations.KeyParityBitsAreIgnored : Prop :=
  ∀ k k' x : BitVec 64, (∀ j, 1 ≤ j → j ≤ 64 → j % 8 ≠ 0 → k.getMsbD (j - 1) = k'.getMsbD (j - 1)) →
    desEnc k x = desEnc k' x ∧ desDec k x = desDec k' x

/-! ### The host interface -/

/-- A write of any word to an operand register, while idle, stores its bits 8:0 there and changes no other
state, and a read back has bits 31:9 at 0 (R30). -/
def Obligations.OperandRegistersKeepNineBits : Prop :=
  ∀ (s : State) (w : Word), s.idle →
    hostWrite 0x014#9 w s = { s with srca := w.extractLsb' 0 9, response := .write false } ∧
    hostWrite 0x018#9 w s = { s with srcb := w.extractLsb' 0 9, response := .write false } ∧
    hostWrite 0x01C#9 w s = { s with dst := w.extractLsb' 0 9, response := .write false } ∧
    hostWrite 0x020#9 w s = { s with len := w.extractLsb' 0 9, response := .write false } ∧
    hostWrite 0x024#9 w s = { s with keyp := w.extractLsb' 0 9, response := .write false } ∧
    hostWrite 0x028#9 w s = { s with keylen := w.extractLsb' 0 9, response := .write false } ∧
    hostWrite 0x02C#9 w s = { s with ivp := w.extractLsb' 0 9, response := .write false } ∧
    ∀ off ∈ operandOffsets,
      (hostRead off (hostWrite off w s)).response = .read (w &&& 0x000001FF#32) false

/-- While idle, a write to CMD stores OP, ALG and IMM and a write to IE stores bit 0, each changes no other state, and
a read back gives `wdata AND 0x00FF07FF` and `wdata AND 1` (R40, R41). -/
def Obligations.CmdAndIeKeepTheirStoredBits : Prop :=
  ∀ (s : State) (w : Word), s.idle →
    hostWrite 0x010#9 w s =
      { s with
        cmd := ⟨w.extractLsb' 0 8, w.extractLsb' 8 3, w.extractLsb' 16 8⟩
        response := .write false } ∧
    hostWrite 0x00C#9 w s = { s with ie := w.getLsbD 0, response := .write false } ∧
    (hostRead 0x010#9 (hostWrite 0x010#9 w s)).response = .read (w &&& 0x00FF07FF#32) false ∧
    (hostRead 0x00C#9 (hostWrite 0x00C#9 w s)).response = .read (w &&& 0x00000001#32) false

/-- The WMEM window: a write to 0x100 + 4j stores its four bytes at 4j to 4j+3, byte 4j from bits 7:0, and no
other; a read returns the same lanes (R66). -/
def Obligations.WmemWindowIsLittleEndianByLane : Prop :=
  ∀ (s : State) (j : Nat) (w : Word), s.idle → s.wmem.wf = true → j < 64 →
    let off : Offset := BitVec.ofNat 9 (0x100 + 4 * j)
    let t := hostWrite off w s
    t = { s with wmem := t.wmem, response := .write false } ∧
    (∀ k < 4, t.wmem.read (4 * j + k) = w.extractLsb' (8 * k) 8) ∧
    (∀ a, ¬(4 * j ≤ a ∧ a < 4 * j + 4) → t.wmem.read a = s.wmem.read a) ∧
    hostRead off s =
      { s with response := .read (s.wmem.read (4 * j + 3) ++ s.wmem.read (4 * j + 2) ++
          s.wmem.read (4 * j + 1) ++ s.wmem.read (4 * j)) false }

/-- A misaligned transfer answers err = 1, reads 0 and changes nothing, in idle and in BUSY (R69). -/
def Obligations.MisalignedTransferChangesNothing : Prop :=
  ∀ (s : State) (off : Offset) (w : Word), off.toNat % 4 ≠ 0 →
    hostWrite off w s = { s with response := .write true } ∧
    hostRead off s = { s with response := .read 0#32 true }

/-- Host accesses while a command is pending: a CTRL write with bit 1 set is the soft reset, every other write
and every WMEM read only set ACCERR; no error response. A register read has its current value and no effect, while
pending and in every other state, and CTRL reads 0 (R70, R68, R32). -/
def Obligations.BusyAccessesAreRefused : Prop :=
  ∀ (s : State) (off : Offset) (w : Word), off.toNat % 4 = 0 →
    (s.status.busy = true →
      (off = 0x004#9 → w.getLsbD 1 = true →
        hostWrite off w s =
          { State.reset with rstN := s.rstN, inputs := s.inputs, response := .write false }) ∧
      (¬(off = 0x004#9 ∧ w.getLsbD 1 = true) →
        hostWrite off w s =
          { s with status := { s.status with accerr := true }, response := .write false }) ∧
      (0x100 ≤ off.toNat →
        hostRead off s =
          { s with status := { s.status with accerr := true }, response := .read 0#32 false })) ∧
    (∀ r, windowMap off = .register r → hostRead off s = { s with response := .read (registerWord s r) false }) ∧
    hostRead 0x004#9 s = { s with response := .read 0#32 false }

/-- Reserved offsets read 0 and ignore writes while idle; a write while BUSY sets ACCERR; never an error response
(R65). -/
def Obligations.ReservedOffsetsReadZero : Prop :=
  ∀ (s : State) (off : Offset) (w : Word), 0x034 ≤ off.toNat → off.toNat ≤ 0x0FC → off.toNat % 4 = 0 →
    hostRead off s = { s with response := .read 0#32 false } ∧
    (s.status.busy = false → hostWrite off w s = { s with response := .write false }) ∧
    (s.status.busy = true →
      hostWrite off w s = { s with status := { s.status with accerr := true }, response := .write false })

/-- Each bit of the word read at STATUS, in every state: BUSY 0, DONE 1, ERR 2, C 3, ACCERR 4, ERRCODE 11:8, all
others 0; irq is DONEIE AND DONE. A STATUS write while idle clears DONE, ERR and ACCERR where the written bit is 1 and
nothing else: the word read is the old word without the written bits of 0x16, and where bit 1 is written irq falls
(R33, R36, R44, R236). -/
def Obligations.StatusWordAndItsWriteOneToClear : Prop :=
  (∀ s : State, s.irq = (s.ie && s.status.done) ∧
    ∃ v, hostRead 0x008#9 s = { s with response := .read v false } ∧
      v.getLsbD 0 = s.status.busy ∧ v.getLsbD 1 = s.status.done ∧ v.getLsbD 2 = s.status.err ∧
      v.getLsbD 3 = s.status.c ∧ v.getLsbD 4 = s.status.accerr ∧ v.extractLsb' 8 4 = s.status.errcode ∧
      ∀ k, (5 ≤ k ∧ k < 8) ∨ 12 ≤ k → v.getLsbD k = false) ∧
  ∀ (s : State) (w : Word), s.idle →
    let t := hostWrite 0x008#9 w s
    t = { s with
          status := { s.status with
            done := s.status.done && !w.getLsbD 1
            err := s.status.err && !w.getLsbD 2
            accerr := s.status.accerr && !w.getLsbD 4 }
          response := .write false } ∧
    t.status.toWord = s.status.toWord &&& ~~~(w &&& 0x00000016#32) ∧
    (w.getLsbD 1 = true → t.irq = false)

/-- START: a CTRL write with bit 0 set and bit 1 clear. While idle BUSY becomes 1 and DONE, ERR and ERRCODE 0, and
nothing else changes; while BUSY it is refused and sets ACCERR (R230). With both bits clear, a CTRL write while idle
changes nothing (R32). START lowers irq (R236). -/
def Obligations.StartSetsBusyAndClearsTheOutcome : Prop :=
  ∀ (s : State) (w : Word), w.getLsbD 1 = false →
    (w.getLsbD 0 = true → s.status.busy = false →
      hostWrite 0x004#9 w s =
        { s with
          status := { s.status with busy := true, done := false, err := false, errcode := 0#4 }
          response := .write false } ∧
      (hostWrite 0x004#9 w s).irq = false) ∧
    (w.getLsbD 0 = true → s.status.busy = true →
      hostWrite 0x004#9 w s =
        { s with status := { s.status with accerr := true }, response := .write false }) ∧
    (w.getLsbD 0 = false → s.status.busy = false → hostWrite 0x004#9 w s = { s with response := .write false })

/-- Soft reset: a CTRL write with bit 1 set, whatever bit 0 is, puts the block in its reset state, in idle and in
BUSY alike; the pending command is gone (R261). -/
def Obligations.SoftResetRestoresTheResetState : Prop :=
  ∀ (s : State) (w : Word), w.getLsbD 1 = true →
    hostWrite 0x004#9 w s =
      { State.reset with rstN := s.rstN, inputs := s.inputs, response := .write false }

/-- Right after reset, after a soft reset in any state, when `rst_n` is driven low and at its release: every register
reads 0 but ID, which reads its constant, every byte of WMEM is 0x00, no command is pending and irq is 0 (R47). -/
def Obligations.ResetValuesAreReadAsStated : Prop :=
  let atReset (t : State) : Prop :=
    (∀ r : Register, registerWord t r = if r = .id then 0x534B4431#32 else 0#32) ∧
    (∀ a : Nat, t.wmem.read a = 0x00#8) ∧ t.status.busy = false ∧ t.irq = false
  atReset State.reset ∧
  (∀ (s : State) (w : Word), w.getLsbD 1 = true → atReset (hostWrite 0x004#9 w s)) ∧
  ∀ (s : State) (rest : List Input),
    s.inputs = .resetLow :: rest ∨ (s.rstN = false ∧ s.inputs = .resetHigh :: rest) →
    ∃ t, step s = .next t ∧ atReset t

/-- Power-on reset: driving `rst_n` low, and releasing it, gives the reset state from any state, whatever was
pending; while it is low no host transfer has a meaning (R260, U16). That the model refuses such a transfer, and
forgets the last answer at an edge, is its own choice (notes/assumptions/5.md, 14.md), and so is what a release does
where `rst_n` is already 1 (notes/assumptions/20.md). -/
def Obligations.PowerOnResetClearsTheBlock : Prop :=
  ∀ (s : State) (rest : List Input) (off : Offset) (w : Word),
    (s.inputs = .resetLow :: rest → step s = .next { State.reset with rstN := false, inputs := rest }) ∧
    (s.inputs = .resetHigh :: rest → step s = .next { State.reset with inputs := rest }) ∧
    (s.rstN = false → s.inputs = .read off :: rest → step s = .refused .transferDuringReset) ∧
    (s.rstN = false → s.inputs = .write off w :: rest → step s = .refused .transferDuringReset)

/-- What a read of each register but STATUS returns, in every state: ID its constant, CTRL 0, IE its bit, CMD its
fields in their places, an operand register and RLEN their value zero-extended. A write to the read-only ID or RLEN while
idle changes nothing and is no error (R30, R31, R32, R40, R41, R42). -/
def Obligations.RegisterReadsReturnTheirFields : Prop :=
  ∀ (s : State) (w : Word),
    let reads (off : Offset) (v : Word) : Prop := hostRead off s = { s with response := .read v false }
    reads 0x000#9 0x534B4431#32 ∧ reads 0x004#9 0#32 ∧ reads 0x00C#9 (if s.ie then 1#32 else 0#32) ∧
    reads 0x010#9 (0#8 ++ s.cmd.imm ++ 0#5 ++ s.cmd.alg ++ s.cmd.op) ∧
    reads 0x014#9 (s.srca.setWidth 32) ∧ reads 0x018#9 (s.srcb.setWidth 32) ∧ reads 0x01C#9 (s.dst.setWidth 32) ∧
    reads 0x020#9 (s.len.setWidth 32) ∧ reads 0x024#9 (s.keyp.setWidth 32) ∧
    reads 0x028#9 (s.keylen.setWidth 32) ∧ reads 0x02C#9 (s.ivp.setWidth 32) ∧
    reads 0x030#9 (s.rlen.setWidth 32) ∧
    (s.status.busy = false → hostWrite 0x000#9 w s = { s with response := .write false }) ∧
    (s.status.busy = false → hostWrite 0x030#9 w s = { s with response := .write false })

/-- No offset aliases another: two aligned offsets that reach the same register or the same WMEM word are equal,
and the platform reaches each of the 512 offsets at BASE plus it and nothing beyond (R62, R63). -/
def Obligations.NoOffsetAliasesAnother : Prop :=
  (∀ o p : Offset, o.toNat % 4 = 0 → p.toNat % 4 = 0 → windowMap o = windowMap p →
    windowMap o ≠ .reserved → o = p) ∧
  Config.base % 512 = 0 ∧
  ∀ address, offsetOfAddress address =
    if Config.base ≤ address ∧ address < Config.base + 512 then some (BitVec.ofNat 9 (address - Config.base))
    else none

/-! ### The whole machine -/

/-- Every step keeps the invariant, from every state that meets it. Its last clause, on the block held in reset,
rests on notes/assumptions/5.md and 14.md. -/
def Obligations.EveryStepKeepsTheInvariant : Prop :=
  ∀ s t : State, Inv s → step s = .next t → Inv t

/-- The reset state meets the invariant. -/
def Obligations.ResetMeetsTheInvariant : Prop := Inv State.reset

/-- No step faults: no command reads or writes outside WMEM, and the only refusal is of a bus transfer made
while `rst_n` is low (R9, R226, U16). From every state, reached or not. The fault and the refusal are the model's
(notes/assumptions/5.md, 7.md). -/
def Obligations.NoStepFaults : Prop :=
  ∀ s : State, safeOutcome (step s) ∧ ∀ r, step s = .refused r → s.rstN = false

/-- BUSY changes only as R34 says: only START sets it; only the completion step of a pending command, at a turn of
the engine, or a reset clears it. -/
def Obligations.OnlyStartSetsBusy : Prop :=
  ∀ s t : State, step s = .next t →
    (s.status.busy = false → t.status.busy = true →
      ∃ w rest, s.inputs = .write 0x004#9 w :: rest ∧ w.getLsbD 0 = true ∧ w.getLsbD 1 = false) ∧
    (s.status.busy = true → t.status.busy = false →
      (s.pending ∧ s.engineMoves ∧ complete { s with inputs := s.inputs.tail } = .next t) ∨
      (∃ w rest, s.inputs = .write 0x004#9 w :: rest ∧ w.getLsbD 1 = true) ∨
      (∃ rest, s.inputs = .resetLow :: rest) ∨ (∃ rest, s.inputs = .resetHigh :: rest))

/-- ACCERR is set only by a host access refused during BUSY: an aligned write but a soft reset, or an aligned
read of WMEM; and such an access does set it (R38). -/
def Obligations.AccerrIsSetExactlyByRefusedAccesses : Prop :=
  ∀ s t : State, step s = .next t → s.status.accerr = false →
    (t.status.accerr = true ↔
      s.status.busy = true ∧
        ((∃ off w rest, s.inputs = .write off w :: rest ∧ off.toNat % 4 = 0 ∧
          ¬(off = 0x004#9 ∧ w.getLsbD 1 = true)) ∨
        (∃ off rest, s.inputs = .read off :: rest ∧ off.toNat % 4 = 0 ∧ 0x100 ≤ off.toNat)))

/-- WMEM is changed only by an aligned host write to its window while idle, by the completion of a pending
command that succeeds, or by a reset (R43, R48). -/
def Obligations.OnlyTheseStepsChangeWmem : Prop :=
  ∀ s t : State, step s = .next t → t.wmem ≠ s.wmem →
    (s.status.busy = false ∧
      ∃ off w rest, s.inputs = .write off w :: rest ∧ off.toNat % 4 = 0 ∧ 0x100 ≤ off.toNat) ∨
    (s.pending ∧ s.engineMoves ∧ firstFailingCode s = 0#4) ∨
    (∃ w rest, s.inputs = .write 0x004#9 w :: rest ∧ w.getLsbD 1 = true) ∨
    (∃ rest, s.inputs = .resetLow :: rest) ∨ (∃ rest, s.inputs = .resetHigh :: rest)

/-- A command's result does not depend on how host steps interleave with the engine: any transfers but a soft
reset made between START and the completion leave it as it would have been at once, but for ACCERR and the last
answer (R72). -/
def Obligations.ResultDoesNotDependOnInterleaving : Prop :=
  ∀ (s : State) (es : List Input), s.pending → (∀ e ∈ es, e.quiet = true) →
    ∃ t u, complete { s with inputs := [] } = .next t ∧ runInputs s (es ++ [.engineTurn]) = .next u ∧
      u.sameButAccess t

/-- Two pending commands that are equal, over equal WMEM, right after their START, give equal WMEM, RLEN and
error outcome (R235). -/
def Obligations.EqualCommandsGiveEqualResults : Prop :=
  ∀ s u s' u' : State, s.command = u.command → s.wmem = u.wmem →
    s.status.err = false → u.status.err = false → s.status.errcode = 0#4 → u.status.errcode = 0#4 →
    complete s = .next s' → complete u = .next u' →
    s'.wmem = u'.wmem ∧ s'.rlen = u'.rlen ∧ s'.status.err = u'.status.err ∧
      s'.status.errcode = u'.status.errcode

/-- The transfers of a command line, from idle, leave exactly its command pending: it decodes to the line's
instruction, START is done, a register the command does not read keeps its value, and WMEM, IE and RLEN are
untouched; and the whole line, with its `poll`, ends in the completion of that instruction and reports its
outcome, whatever the latency (R96, R104, R107; the place of the engine's turn is notes/assumptions/2.md). A line
with a value that does not fit its field is rejected: it has no transfers, and running it, or a program that holds it,
changes nothing (R103; that none of such a program runs is notes/assumptions/21.md). -/
def Obligations.CommandLineLeavesItsCommandPending : Prop :=
  (∀ (i : Instr) (s : State), i.wellFormed = true → s.idle →
    ∃ t, runInputs s (commandTransfers i) = .next t ∧ t.pending ∧
      decodeCommand t.command = .ok i ∧
      (∀ r ∈ operandRegisters, Instr.reads i r = false → registerWord t r = registerWord s r) ∧
      t.status = { s.status with busy := true, done := false, err := false, errcode := 0#4 } ∧
      t.wmem = s.wmem ∧ t.ie = s.ie ∧ t.rlen = s.rlen ∧ t.inputs = [] ∧ t.response = .write false ∧
      ∃ u, exec i t = .next u ∧ ∀ latency, runCommandLine latency i s =
        .next ({ u with response := .read u.status.toWord false },
          .polled (if u.status.err then .failure u.status.errcode else .success))) ∧
  ∀ (i : Instr) (s : State), i.wellFormed = false →
    commandTransfers i = [] ∧
    (∀ latency, runCommandLine latency i s = .next (s, .rejected)) ∧
    ∀ (program : List (Line × Nat)) (latency : Nat), (.command i, latency) ∈ program →
      runProgram program s = .next (s, [.rejected])

/-- `ldb A, HEX`, from idle, stores its bytes at A and no other byte, whatever the alignment of A (R66, R105). The
words that the line merges are those WMEM holds at its start (notes/assumptions/16.md). -/
def Obligations.LdbStoresExactlyItsBytes : Prop :=
  ∀ (s : State) (a : Nat) (bs : List Byte), s.idle → s.wmem.wf = true → a + bs.length ≤ 256 →
    ∃ t, runInputs s (ldbTransfers s.wmem a bs) = .next t ∧
      t = { s with wmem := t.wmem, inputs := [], response := t.response } ∧
      ∀ x, t.wmem.read x = if a ≤ x ∧ x < a + bs.length then bs.getD (x - a) 0x00#8 else s.wmem.read x

/-- `rdb A, N`, from idle, gives exactly the N bytes at A, issues its word reads and changes nothing but the last
answer; and of the words WMEM holds it keeps exactly those bytes (R66, R106). -/
def Obligations.RdbKeepsExactlyItsBytes : Prop :=
  ∀ (a n : Nat), a + n ≤ 256 →
    (∀ m : Memory, rdbBytes a n ((touchedWords a n).map (wmemLanes m)) = m.bytes a n) ∧
    ∀ s : State, s.idle →
      ∃ t, runRdb a n s = .next (t, s.wmem.bytes a n) ∧ runInputs s (rdbTransfers a n) = .next t ∧
        t = { s with inputs := [], response := t.response }

/-- `poll` ends: after any number of reads that find BUSY = 1 the engine's turn completes the command, with or
without an engine turn named, and the next read reports its outcome. Run by the host, `poll` ends for every latency
in the completed state with that outcome, and at its first read when nothing is pending (R107, R273). That
the engine moves when no other step is left is the model's form of R273 (notes/assumptions/2.md). -/
def Obligations.PollEndsAndReportsTheOutcome : Prop :=
  ∀ (s : State) (n : Nat), s.pending →
    (∃ t, runInputs s (pollTransfers n ++ [.engineTurn, rd 0x008#9]) = .next t ∧
      t.status.busy = false ∧ t.status.done = true ∧ t.response = .read t.status.toWord false ∧
      pollCheck t.status.toWord = if t.status.err then .failure t.status.errcode else .success) ∧
    (∃ u v, runInputs s (pollTransfers n) = .next u ∧ u.pending ∧ pollCheck u.status.toWord = .again ∧
      step u = .next v ∧ v.status.busy = false ∧ v.status.done = true) ∧
    (∃ u, complete { s with inputs := [] } = .next u ∧
      poll n s = .next ({ u with response := .read u.status.toWord false },
        if u.status.err then .failure u.status.errcode else .success)) ∧
    ∀ v : State, v.idle →
      poll n v = .next ({ v with inputs := [], response := .read v.status.toWord false },
        if v.status.err then .failure v.status.errcode else .success)
end

