-- ==== Sys2Proof/Laws/Memory.lean ====
section
/-! SUPPORT. WMEM: reading after writing, and the canonical form, which every memory operation keeps and the
reset memory has (10_state.md R43, R47). -/

namespace Sys2Proof.Machine

@[simp] theorem Memory.read_nil (a : Nat) : Memory.read [] a = 0x00#8 := rfl

@[simp] theorem Memory.writeBytes_nil (m : Memory) (a : Nat) : m.writeBytes a [] = m := rfl

@[simp] theorem Memory.writeBytes_cons (m : Memory) (a : Nat) (b : Byte) (bs : List Byte) :
    m.writeBytes a (b :: bs) = (m.write a b).writeBytes (a + 1) bs := rfl

/-- The reset memory is canonical. -/
theorem Memory.wf_nil : Memory.wf [] = true := rfl

/-- What the canonical form says of a non-empty list. -/
theorem Memory.wfFrom_cons (lo a : Nat) (b : Byte) (m : Memory) :
    Memory.wfFrom lo ((a, b) :: m) = true ↔
      lo ≤ a ∧ a < 256 ∧ b ≠ 0x00#8 ∧ Memory.wfFrom (a + 1) m = true := by
  simp only [Memory.wfFrom, Bool.and_eq_true, decide_eq_true_eq, and_assoc]
  exact Iff.rfl

/-- A list canonical from `hi` on is canonical from any lower bound on. -/
theorem Memory.wfFrom_mono {lo hi : Nat} (h : lo ≤ hi) :
    ∀ {m : Memory}, Memory.wfFrom hi m = true → Memory.wfFrom lo m = true
  | [], _ => rfl
  | (a, b) :: m, hm => by
    rw [Memory.wfFrom_cons] at hm ⊢
    exact ⟨h.trans hm.1, hm.2⟩

/-- Below its lower bound a canonical list holds nothing. -/
theorem Memory.read_below {lo a : Nat} (h : a < lo) :
    ∀ {m : Memory}, Memory.wfFrom lo m = true → m.read a = 0x00#8
  | [], _ => rfl
  | (k, v) :: m, hm => by
    rw [Memory.wfFrom_cons] at hm
    have hk : k ≠ a := by omega
    simp only [Memory.read, if_neg hk]
    exact Memory.read_below (by omega) hm.2.2.2

/-- A write keeps the canonical form. -/
theorem Memory.wfFrom_write {a : Nat} (ha : a < 256) (b : Byte) :
    ∀ {lo : Nat} {m : Memory}, lo ≤ a → Memory.wfFrom lo m = true → Memory.wfFrom lo (m.write a b) = true
  | lo, [], hlo, _ => by
    unfold Memory.write
    split
    · rfl
    · exact (Memory.wfFrom_cons ..).2 ⟨hlo, ha, ‹_›, rfl⟩
  | lo, (k, v) :: m, hlo, hm => by
    have hm' := hm
    rw [Memory.wfFrom_cons] at hm'
    obtain ⟨h1, h2, h3, h4⟩ := hm'
    unfold Memory.write
    split
    · split
      · exact hm
      · exact (Memory.wfFrom_cons ..).2 ⟨hlo, ha, ‹_›, (Memory.wfFrom_cons ..).2 ⟨by omega, h2, h3, h4⟩⟩
    · split
      · split
        · exact Memory.wfFrom_mono (by omega) h4
        · exact (Memory.wfFrom_cons ..).2 ⟨hlo, ha, ‹_›, by subst_vars; exact h4⟩
      · exact (Memory.wfFrom_cons ..).2 ⟨h1, h2, h3, Memory.wfFrom_write ha b (by omega) h4⟩

theorem Memory.wf_write {m : Memory} {a : Nat} (ha : a < 256) (b : Byte) (h : m.wf = true) :
    (m.write a b).wf = true :=
  Memory.wfFrom_write ha b (Nat.zero_le _) h

/-- A byte string stored inside WMEM keeps the canonical form. -/
theorem Memory.wf_writeBytes : ∀ {m : Memory} {a : Nat} {bs : List Byte}, a + bs.length ≤ 256 →
    m.wf = true → (m.writeBytes a bs).wf = true
  | _, _, [], _, hm => hm
  | m, a, b :: bs, h, hm => by
    simp only [List.length_cons] at h
    exact Memory.wf_writeBytes (m := m.write a b) (by omega) (Memory.wf_write (by omega) b hm)

/-- Reading after a write, on a canonical list: the byte written at its address, every other as before. -/
theorem Memory.read_write_from {a : Nat} (b : Byte) (x : Nat) :
    ∀ {lo : Nat} {m : Memory}, Memory.wfFrom lo m = true →
      (m.write a b).read x = if x = a then b else m.read x
  | lo, [], _ => by
    unfold Memory.write
    split
    · by_cases hx : x = a
      · simp_all [Memory.read, Memory.unwritten]
      · simp [hx]
    · by_cases hx : x = a
      · simp [Memory.read, hx]
      · simp [Memory.read, hx, Ne.symm hx]
  | lo, (k, v) :: m, hm => by
    have hm' := hm
    rw [Memory.wfFrom_cons] at hm'
    obtain ⟨h1, h2, h3, h4⟩ := hm'
    unfold Memory.write
    by_cases hx : x = a
    · subst hx
      split
      · split
        · have : Memory.wfFrom k ((k, v) :: m) = true := (Memory.wfFrom_cons ..).2 ⟨le_refl _, h2, h3, h4⟩
          rw [Memory.read_below ‹_› this]
          simp_all [Memory.unwritten]
        · simp [Memory.read]
      · split
        · subst_vars
          split
          · rw [Memory.read_below (Nat.lt_succ_self _) h4]
            simp_all [Memory.unwritten]
          · simp [Memory.read]
        · rw [Memory.read, if_neg (by omega), Memory.read_write_from b x h4, if_pos rfl, if_pos rfl]
    · simp only [if_neg hx]
      split
      · split
        · rfl
        · simp [Memory.read, Ne.symm hx]
      · split
        · subst_vars
          split <;> simp [Memory.read, Ne.symm hx]
        · simp only [Memory.read]
          rw [Memory.read_write_from b x h4, if_neg hx]

theorem Memory.read_write {m : Memory} (h : m.wf = true) (a : Nat) (b : Byte) (x : Nat) :
    (m.write a b).read x = if x = a then b else m.read x :=
  Memory.read_write_from b x h

/-- Reading after a byte string is stored inside WMEM: its bytes in order, every other byte as before. -/
theorem Memory.read_writeBytes : ∀ {m : Memory} {a : Nat} {bs : List Byte} (x : Nat), a + bs.length ≤ 256 →
    m.wf = true →
      (m.writeBytes a bs).read x = if a ≤ x ∧ x < a + bs.length then bs.getD (x - a) 0x00#8 else m.read x
  | m, a, [], x, _, _ => by
    have : ¬(a ≤ x ∧ x < a) := by omega
    simp [this]
  | m, a, b :: bs, x, h, hm => by
    simp only [List.length_cons] at h ⊢
    rw [Memory.writeBytes_cons, Memory.read_writeBytes x (by omega) (Memory.wf_write (by omega) b hm),
      Memory.read_write hm]
    by_cases hx : x = a
    · subst hx
      simp
    · by_cases hin : a + 1 ≤ x ∧ x < a + 1 + bs.length
      · have : a ≤ x ∧ x < a + (bs.length + 1) := by omega
        have e : x - a = (x - (a + 1)) + 1 := by omega
        simp [hin, this, e]
      · have : ¬(a ≤ x ∧ x < a + (bs.length + 1)) := by omega
        rw [if_neg hin, if_neg this, if_neg hx]

theorem Memory.read_writeBytes_outside {m : Memory} {a : Nat} {bs : List Byte} {x : Nat}
    (h : a + bs.length ≤ 256) (hm : m.wf = true) (hx : ¬(a ≤ x ∧ x < a + bs.length)) :
    (m.writeBytes a bs).read x = m.read x := by
  rw [Memory.read_writeBytes x h hm, if_neg hx]

theorem Memory.read_writeBytes_inside {m : Memory} {a : Nat} {bs : List Byte} {i : Nat}
    (h : a + bs.length ≤ 256) (hm : m.wf = true) (hi : i < bs.length) :
    (m.writeBytes a bs).read (a + i) = bs.getD i 0x00#8 := by
  rw [Memory.read_writeBytes _ h hm, if_pos (by omega), Nat.add_sub_cancel_left]

@[simp] theorem Memory.bytes_length (m : Memory) (a n : Nat) : (m.bytes a n).length = n := by
  simp [Memory.bytes]

@[simp] theorem Memory.bytes_zero (m : Memory) (a : Nat) : m.bytes a 0 = [] := rfl

theorem Memory.bytes_getElem (m : Memory) (a n i : Nat) (h : i < (m.bytes a n).length) :
    (m.bytes a n)[i] = m.read (a + i) := by
  simp [Memory.bytes]

theorem Memory.bytes_getD (m : Memory) (a n i : Nat) (h : i < n) :
    (m.bytes a n).getD i 0x00#8 = m.read (a + i) := by
  simp [Memory.bytes, h]

/-- Reading a stored byte string back. -/
theorem Memory.bytes_writeBytes {m : Memory} {a : Nat} {bs : List Byte} (h : a + bs.length ≤ 256)
    (hm : m.wf = true) : (m.writeBytes a bs).bytes a bs.length = bs := by
  apply List.ext_getElem
  · simp
  · intro i h1 h2
    rw [Memory.bytes_getElem, Memory.read_writeBytes_inside h hm h2]
    simp [h2]

/-- Two canonical lists that read alike are equal. -/
theorem Memory.eq_of_read_eq : ∀ {lo : Nat} {m n : Memory}, Memory.wfFrom lo m = true →
    Memory.wfFrom lo n = true → (∀ x, m.read x = n.read x) → m = n
  | _, [], [], _, _, _ => rfl
  | lo, [], (k, v) :: n, _, hn, h => by
    rw [Memory.wfFrom_cons] at hn
    have := h k
    simp [Memory.read] at this
    exact absurd this.symm hn.2.2.1
  | lo, (k, v) :: m, [], hm, _, h => by
    rw [Memory.wfFrom_cons] at hm
    have := h k
    simp [Memory.read] at this
    exact absurd this hm.2.2.1
  | lo, (k, v) :: m, (k', v') :: n, hm, hn, h => by
    have hm' := (Memory.wfFrom_cons ..).1 hm
    have hn' := (Memory.wfFrom_cons ..).1 hn
    have key : ∀ {j j' : Nat} {w w' : Byte} {p q : Memory}, j < j' → w ≠ 0x00#8 →
        Memory.wfFrom (j' + 1) q = true → Memory.read ((j, w) :: p) j ≠ Memory.read ((j', w') :: q) j := by
      intro j j' w w' p q hj hw hq
      have : j' ≠ j := by omega
      simp only [Memory.read, if_true, if_neg this]
      rw [Memory.read_below (by omega) hq]
      exact hw
    have hkk : k = k' := by
      rcases Nat.lt_trichotomy k k' with hlt | heq | hgt
      · exact absurd (h k) (key hlt hm'.2.2.1 hn'.2.2.2)
      · exact heq
      · exact absurd (h k').symm (key hgt hn'.2.2.1 hm'.2.2.2)
    subst hkk
    have hvv : v = v' := by simpa [Memory.read] using h k
    subst hvv
    have hrest : m = n := by
      refine Memory.eq_of_read_eq hm'.2.2.2 hn'.2.2.2 fun x => ?_
      by_cases hx : k = x
      · subst hx
        rw [Memory.read_below (Nat.lt_succ_self _) hm'.2.2.2, Memory.read_below (Nat.lt_succ_self _) hn'.2.2.2]
      · simpa [Memory.read, hx] using h x
    rw [hrest]

end Sys2Proof.Machine
end

