-- ==== Sys2Proof/Laws/State.lean ====
section
/-! SUPPORT. One lemma per field per update of State and Status, each true by rfl, so that no later proof
unfolds a record update. -/

namespace Sys2Proof.Machine

@[simp] theorem Status.writeOneToClear_busy (st : Status) (w : Word) : (st.writeOneToClear w).busy = st.busy := rfl
@[simp] theorem Status.writeOneToClear_done (st : Status) (w : Word) : (st.writeOneToClear w).done = (st.done && !w.getLsbD 1) := rfl
@[simp] theorem Status.writeOneToClear_err (st : Status) (w : Word) : (st.writeOneToClear w).err = (st.err && !w.getLsbD 2) := rfl
@[simp] theorem Status.writeOneToClear_c (st : Status) (w : Word) : (st.writeOneToClear w).c = st.c := rfl
@[simp] theorem Status.writeOneToClear_accerr (st : Status) (w : Word) : (st.writeOneToClear w).accerr = (st.accerr && !w.getLsbD 4) := rfl
@[simp] theorem Status.writeOneToClear_errcode (st : Status) (w : Word) : (st.writeOneToClear w).errcode = st.errcode := rfl

@[simp] theorem Status.started_busy (st : Status) : (st.started).busy = true := rfl
@[simp] theorem Status.started_done (st : Status) : (st.started).done = false := rfl
@[simp] theorem Status.started_err (st : Status) : (st.started).err = false := rfl
@[simp] theorem Status.started_c (st : Status) : (st.started).c = st.c := rfl
@[simp] theorem Status.started_accerr (st : Status) : (st.started).accerr = st.accerr := rfl
@[simp] theorem Status.started_errcode (st : Status) : (st.started).errcode = 0#4 := rfl

@[simp] theorem Status.succeeded_busy (st : Status) (carry : Option Bool) : (st.succeeded carry).busy = false := rfl
@[simp] theorem Status.succeeded_done (st : Status) (carry : Option Bool) : (st.succeeded carry).done = true := rfl
@[simp] theorem Status.succeeded_err (st : Status) (carry : Option Bool) : (st.succeeded carry).err = st.err := rfl
@[simp] theorem Status.succeeded_c (st : Status) (carry : Option Bool) : (st.succeeded carry).c = carry.getD st.c := rfl
@[simp] theorem Status.succeeded_accerr (st : Status) (carry : Option Bool) : (st.succeeded carry).accerr = st.accerr := rfl
@[simp] theorem Status.succeeded_errcode (st : Status) (carry : Option Bool) : (st.succeeded carry).errcode = st.errcode := rfl

@[simp] theorem Status.failed_busy (st : Status) (e : CmdError) : (st.failed e).busy = false := rfl
@[simp] theorem Status.failed_done (st : Status) (e : CmdError) : (st.failed e).done = true := rfl
@[simp] theorem Status.failed_err (st : Status) (e : CmdError) : (st.failed e).err = true := rfl
@[simp] theorem Status.failed_c (st : Status) (e : CmdError) : (st.failed e).c = st.c := rfl
@[simp] theorem Status.failed_accerr (st : Status) (e : CmdError) : (st.failed e).accerr = st.accerr := rfl
@[simp] theorem Status.failed_errcode (st : Status) (e : CmdError) : (st.failed e).errcode = e.code := rfl

@[simp] theorem Status.refusedAccess_busy (st : Status) : (st.refusedAccess).busy = st.busy := rfl
@[simp] theorem Status.refusedAccess_done (st : Status) : (st.refusedAccess).done = st.done := rfl
@[simp] theorem Status.refusedAccess_err (st : Status) : (st.refusedAccess).err = st.err := rfl
@[simp] theorem Status.refusedAccess_c (st : Status) : (st.refusedAccess).c = st.c := rfl
@[simp] theorem Status.refusedAccess_accerr (st : Status) : (st.refusedAccess).accerr = true := rfl
@[simp] theorem Status.refusedAccess_errcode (st : Status) : (st.refusedAccess).errcode = st.errcode := rfl

@[simp] theorem State.commandFailed_srca (s : State) (e : CmdError) : (s.commandFailed e).srca = s.srca := rfl
@[simp] theorem State.commandFailed_srcb (s : State) (e : CmdError) : (s.commandFailed e).srcb = s.srcb := rfl
@[simp] theorem State.commandFailed_dst (s : State) (e : CmdError) : (s.commandFailed e).dst = s.dst := rfl
@[simp] theorem State.commandFailed_len (s : State) (e : CmdError) : (s.commandFailed e).len = s.len := rfl
@[simp] theorem State.commandFailed_keyp (s : State) (e : CmdError) : (s.commandFailed e).keyp = s.keyp := rfl
@[simp] theorem State.commandFailed_keylen (s : State) (e : CmdError) : (s.commandFailed e).keylen = s.keylen := rfl
@[simp] theorem State.commandFailed_ivp (s : State) (e : CmdError) : (s.commandFailed e).ivp = s.ivp := rfl
@[simp] theorem State.commandFailed_cmd (s : State) (e : CmdError) : (s.commandFailed e).cmd = s.cmd := rfl
@[simp] theorem State.commandFailed_status (s : State) (e : CmdError) : (s.commandFailed e).status = s.status.failed e := rfl
@[simp] theorem State.commandFailed_ie (s : State) (e : CmdError) : (s.commandFailed e).ie = s.ie := rfl
@[simp] theorem State.commandFailed_rlen (s : State) (e : CmdError) : (s.commandFailed e).rlen = 0#9 := rfl
@[simp] theorem State.commandFailed_wmem (s : State) (e : CmdError) : (s.commandFailed e).wmem = s.wmem := rfl
@[simp] theorem State.commandFailed_rstN (s : State) (e : CmdError) : (s.commandFailed e).rstN = s.rstN := rfl
@[simp] theorem State.commandFailed_inputs (s : State) (e : CmdError) : (s.commandFailed e).inputs = s.inputs := rfl
@[simp] theorem State.commandFailed_response (s : State) (e : CmdError) : (s.commandFailed e).response = s.response := rfl

@[simp] theorem State.commandSucceeded_srca (s : State) (m : Memory) (r : Result) : (s.commandSucceeded m r).srca = s.srca := rfl
@[simp] theorem State.commandSucceeded_srcb (s : State) (m : Memory) (r : Result) : (s.commandSucceeded m r).srcb = s.srcb := rfl
@[simp] theorem State.commandSucceeded_dst (s : State) (m : Memory) (r : Result) : (s.commandSucceeded m r).dst = s.dst := rfl
@[simp] theorem State.commandSucceeded_len (s : State) (m : Memory) (r : Result) : (s.commandSucceeded m r).len = s.len := rfl
@[simp] theorem State.commandSucceeded_keyp (s : State) (m : Memory) (r : Result) : (s.commandSucceeded m r).keyp = s.keyp := rfl
@[simp] theorem State.commandSucceeded_keylen (s : State) (m : Memory) (r : Result) : (s.commandSucceeded m r).keylen = s.keylen := rfl
@[simp] theorem State.commandSucceeded_ivp (s : State) (m : Memory) (r : Result) : (s.commandSucceeded m r).ivp = s.ivp := rfl
@[simp] theorem State.commandSucceeded_cmd (s : State) (m : Memory) (r : Result) : (s.commandSucceeded m r).cmd = s.cmd := rfl
@[simp] theorem State.commandSucceeded_status (s : State) (m : Memory) (r : Result) : (s.commandSucceeded m r).status = s.status.succeeded r.carry := rfl
@[simp] theorem State.commandSucceeded_ie (s : State) (m : Memory) (r : Result) : (s.commandSucceeded m r).ie = s.ie := rfl
@[simp] theorem State.commandSucceeded_rlen (s : State) (m : Memory) (r : Result) : (s.commandSucceeded m r).rlen = BitVec.ofNat 9 r.bytes.length := rfl
@[simp] theorem State.commandSucceeded_wmem (s : State) (m : Memory) (r : Result) : (s.commandSucceeded m r).wmem = m := rfl
@[simp] theorem State.commandSucceeded_rstN (s : State) (m : Memory) (r : Result) : (s.commandSucceeded m r).rstN = s.rstN := rfl
@[simp] theorem State.commandSucceeded_inputs (s : State) (m : Memory) (r : Result) : (s.commandSucceeded m r).inputs = s.inputs := rfl
@[simp] theorem State.commandSucceeded_response (s : State) (m : Memory) (r : Result) : (s.commandSucceeded m r).response = s.response := rfl

@[simp] theorem State.start_srca (s : State) : (s.start).srca = s.srca := rfl
@[simp] theorem State.start_srcb (s : State) : (s.start).srcb = s.srcb := rfl
@[simp] theorem State.start_dst (s : State) : (s.start).dst = s.dst := rfl
@[simp] theorem State.start_len (s : State) : (s.start).len = s.len := rfl
@[simp] theorem State.start_keyp (s : State) : (s.start).keyp = s.keyp := rfl
@[simp] theorem State.start_keylen (s : State) : (s.start).keylen = s.keylen := rfl
@[simp] theorem State.start_ivp (s : State) : (s.start).ivp = s.ivp := rfl
@[simp] theorem State.start_cmd (s : State) : (s.start).cmd = s.cmd := rfl
@[simp] theorem State.start_status (s : State) : (s.start).status = s.status.started := rfl
@[simp] theorem State.start_ie (s : State) : (s.start).ie = s.ie := rfl
@[simp] theorem State.start_rlen (s : State) : (s.start).rlen = s.rlen := rfl
@[simp] theorem State.start_wmem (s : State) : (s.start).wmem = s.wmem := rfl
@[simp] theorem State.start_rstN (s : State) : (s.start).rstN = s.rstN := rfl
@[simp] theorem State.start_inputs (s : State) : (s.start).inputs = s.inputs := rfl
@[simp] theorem State.start_response (s : State) : (s.start).response = s.response := rfl

@[simp] theorem State.resetBlock_srca (s : State) : (s.resetBlock).srca = 0#9 := rfl
@[simp] theorem State.resetBlock_srcb (s : State) : (s.resetBlock).srcb = 0#9 := rfl
@[simp] theorem State.resetBlock_dst (s : State) : (s.resetBlock).dst = 0#9 := rfl
@[simp] theorem State.resetBlock_len (s : State) : (s.resetBlock).len = 0#9 := rfl
@[simp] theorem State.resetBlock_keyp (s : State) : (s.resetBlock).keyp = 0#9 := rfl
@[simp] theorem State.resetBlock_keylen (s : State) : (s.resetBlock).keylen = 0#9 := rfl
@[simp] theorem State.resetBlock_ivp (s : State) : (s.resetBlock).ivp = 0#9 := rfl
@[simp] theorem State.resetBlock_cmd (s : State) : (s.resetBlock).cmd = ⟨0x00#8, 0#3, 0x00#8⟩ := rfl
@[simp] theorem State.resetBlock_status (s : State) : (s.resetBlock).status = Status.reset := rfl
@[simp] theorem State.resetBlock_ie (s : State) : (s.resetBlock).ie = false := rfl
@[simp] theorem State.resetBlock_rlen (s : State) : (s.resetBlock).rlen = 0#9 := rfl
@[simp] theorem State.resetBlock_wmem (s : State) : (s.resetBlock).wmem = [] := rfl
@[simp] theorem State.resetBlock_rstN (s : State) : (s.resetBlock).rstN = s.rstN := rfl
@[simp] theorem State.resetBlock_inputs (s : State) : (s.resetBlock).inputs = s.inputs := rfl
@[simp] theorem State.resetBlock_response (s : State) : (s.resetBlock).response = s.response := rfl

@[simp] theorem State.withCommand_srca (s : State) (c : Command) : (s.withCommand c).srca = c.srca := rfl
@[simp] theorem State.withCommand_srcb (s : State) (c : Command) : (s.withCommand c).srcb = c.srcb := rfl
@[simp] theorem State.withCommand_dst (s : State) (c : Command) : (s.withCommand c).dst = c.dst := rfl
@[simp] theorem State.withCommand_len (s : State) (c : Command) : (s.withCommand c).len = c.len := rfl
@[simp] theorem State.withCommand_keyp (s : State) (c : Command) : (s.withCommand c).keyp = c.keyp := rfl
@[simp] theorem State.withCommand_keylen (s : State) (c : Command) : (s.withCommand c).keylen = c.keylen := rfl
@[simp] theorem State.withCommand_ivp (s : State) (c : Command) : (s.withCommand c).ivp = c.ivp := rfl
@[simp] theorem State.withCommand_cmd (s : State) (c : Command) : (s.withCommand c).cmd = c.cmd := rfl
@[simp] theorem State.withCommand_status (s : State) (c : Command) : (s.withCommand c).status = s.status := rfl
@[simp] theorem State.withCommand_ie (s : State) (c : Command) : (s.withCommand c).ie = s.ie := rfl
@[simp] theorem State.withCommand_rlen (s : State) (c : Command) : (s.withCommand c).rlen = s.rlen := rfl
@[simp] theorem State.withCommand_wmem (s : State) (c : Command) : (s.withCommand c).wmem = s.wmem := rfl
@[simp] theorem State.withCommand_rstN (s : State) (c : Command) : (s.withCommand c).rstN = s.rstN := rfl
@[simp] theorem State.withCommand_inputs (s : State) (c : Command) : (s.withCommand c).inputs = s.inputs := rfl
@[simp] theorem State.withCommand_response (s : State) (c : Command) : (s.withCommand c).response = s.response := rfl

@[simp] theorem State.accessRefused_srca (s : State) : (s.accessRefused).srca = s.srca := rfl
@[simp] theorem State.accessRefused_srcb (s : State) : (s.accessRefused).srcb = s.srcb := rfl
@[simp] theorem State.accessRefused_dst (s : State) : (s.accessRefused).dst = s.dst := rfl
@[simp] theorem State.accessRefused_len (s : State) : (s.accessRefused).len = s.len := rfl
@[simp] theorem State.accessRefused_keyp (s : State) : (s.accessRefused).keyp = s.keyp := rfl
@[simp] theorem State.accessRefused_keylen (s : State) : (s.accessRefused).keylen = s.keylen := rfl
@[simp] theorem State.accessRefused_ivp (s : State) : (s.accessRefused).ivp = s.ivp := rfl
@[simp] theorem State.accessRefused_cmd (s : State) : (s.accessRefused).cmd = s.cmd := rfl
@[simp] theorem State.accessRefused_status (s : State) : (s.accessRefused).status = s.status.refusedAccess := rfl
@[simp] theorem State.accessRefused_ie (s : State) : (s.accessRefused).ie = s.ie := rfl
@[simp] theorem State.accessRefused_rlen (s : State) : (s.accessRefused).rlen = s.rlen := rfl
@[simp] theorem State.accessRefused_wmem (s : State) : (s.accessRefused).wmem = s.wmem := rfl
@[simp] theorem State.accessRefused_rstN (s : State) : (s.accessRefused).rstN = s.rstN := rfl
@[simp] theorem State.accessRefused_inputs (s : State) : (s.accessRefused).inputs = s.inputs := rfl
@[simp] theorem State.accessRefused_response (s : State) : (s.accessRefused).response = s.response := rfl

@[simp] theorem driveReset_srca (level : Bool) (s : State) : (driveReset level s).srca = 0#9 := rfl
@[simp] theorem driveReset_srcb (level : Bool) (s : State) : (driveReset level s).srcb = 0#9 := rfl
@[simp] theorem driveReset_dst (level : Bool) (s : State) : (driveReset level s).dst = 0#9 := rfl
@[simp] theorem driveReset_len (level : Bool) (s : State) : (driveReset level s).len = 0#9 := rfl
@[simp] theorem driveReset_keyp (level : Bool) (s : State) : (driveReset level s).keyp = 0#9 := rfl
@[simp] theorem driveReset_keylen (level : Bool) (s : State) : (driveReset level s).keylen = 0#9 := rfl
@[simp] theorem driveReset_ivp (level : Bool) (s : State) : (driveReset level s).ivp = 0#9 := rfl
@[simp] theorem driveReset_cmd (level : Bool) (s : State) : (driveReset level s).cmd = ⟨0x00#8, 0#3, 0x00#8⟩ := rfl
@[simp] theorem driveReset_status (level : Bool) (s : State) : (driveReset level s).status = Status.reset := rfl
@[simp] theorem driveReset_ie (level : Bool) (s : State) : (driveReset level s).ie = false := rfl
@[simp] theorem driveReset_rlen (level : Bool) (s : State) : (driveReset level s).rlen = 0#9 := rfl
@[simp] theorem driveReset_wmem (level : Bool) (s : State) : (driveReset level s).wmem = [] := rfl
@[simp] theorem driveReset_rstN (level : Bool) (s : State) : (driveReset level s).rstN = level := rfl
@[simp] theorem driveReset_inputs (level : Bool) (s : State) : (driveReset level s).inputs = s.inputs := rfl
@[simp] theorem driveReset_response (level : Bool) (s : State) : (driveReset level s).response = .noTransfer := rfl

@[simp] theorem Status.reset_busy : Status.reset.busy = false := rfl
@[simp] theorem Status.reset_done : Status.reset.done = false := rfl
@[simp] theorem Status.reset_err : Status.reset.err = false := rfl
@[simp] theorem Status.reset_c : Status.reset.c = false := rfl
@[simp] theorem Status.reset_accerr : Status.reset.accerr = false := rfl
@[simp] theorem Status.reset_errcode : Status.reset.errcode = 0#4 := rfl

@[simp] theorem State.command_cmd (s : State) : s.command.cmd = s.cmd := rfl
@[simp] theorem State.command_srca (s : State) : s.command.srca = s.srca := rfl
@[simp] theorem State.command_srcb (s : State) : s.command.srcb = s.srcb := rfl
@[simp] theorem State.command_dst (s : State) : s.command.dst = s.dst := rfl
@[simp] theorem State.command_len (s : State) : s.command.len = s.len := rfl
@[simp] theorem State.command_keyp (s : State) : s.command.keyp = s.keyp := rfl
@[simp] theorem State.command_keylen (s : State) : s.command.keylen = s.keylen := rfl
@[simp] theorem State.command_ivp (s : State) : s.command.ivp = s.ivp := rfl

end Sys2Proof.Machine
end

