-- ==== Sys2Proof/Laws/Bus.lean ====
section
/-! SUPPORT. What a bus read and a bus write can do, said once: refused when misaligned, the BUSY refusals, and
the effect of the target while idle; and what each offset of the window reaches. -/

namespace Sys2Proof.Machine

theorem misaligned_eq_false {off : Offset} : misaligned off = false ↔ off.toNat % 4 = 0 := by
  simp [misaligned]

theorem busWrite_misaligned {off : Offset} {w : Word} {s : State} (h : misaligned off = true) :
    busWrite off w s = (s, true) := by
  simp [busWrite, h]

theorem busWrite_busy {off : Offset} {w : Word} {s : State} (h : misaligned off = false)
    (hb : s.status.busy = true) : busWrite off w s = (writeBusy s (windowMap off) w, false) := by
  simp [busWrite, h, hb]

theorem busWrite_idle {off : Offset} {w : Word} {s : State} (h : misaligned off = false)
    (hb : s.status.busy = false) : busWrite off w s = (writeTarget s (windowMap off) w, false) := by
  simp [busWrite, h, hb]

/-- Everything a bus write can do. -/
theorem busWrite_cases (off : Offset) (w : Word) (s : State) :
    (misaligned off = true ∧ busWrite off w s = (s, true)) ∨
    (misaligned off = false ∧ s.status.busy = true ∧ busWrite off w s = (writeBusy s (windowMap off) w, false)) ∨
    (misaligned off = false ∧ s.status.busy = false ∧
      busWrite off w s = (writeTarget s (windowMap off) w, false)) := by
  cases h : misaligned off
  · cases hb : s.status.busy
    · exact .inr (.inr ⟨rfl, rfl, busWrite_idle h hb⟩)
    · exact .inr (.inl ⟨rfl, rfl, busWrite_busy h hb⟩)
  · exact .inl ⟨rfl, busWrite_misaligned h⟩

/-- A write while a command is pending resets the block or sets ACCERR. -/
theorem writeBusy_cases (s : State) (t : Target) (w : Word) :
    (t = .register .ctrl ∧ w.getLsbD 1 = true ∧ writeBusy s t w = s.resetBlock) ∨
    (¬(t = .register .ctrl ∧ w.getLsbD 1 = true) ∧ writeBusy s t w = s.accessRefused) := by
  unfold writeBusy
  split
  · exact .inl ⟨‹_ ∧ _›.1, ‹_ ∧ _›.2, rfl⟩
  · exact .inr ⟨‹_›, rfl⟩

/-- A read changes nothing, but for a WMEM read while a command is pending, which sets ACCERR. -/
theorem busRead_state (off : Offset) (s : State) :
    (busRead off s).1 = s ∨ (s.status.busy = true ∧ (busRead off s).1 = s.accessRefused) := by
  unfold busRead
  split
  · exact .inl rfl
  · split
    · exact .inl rfl
    · exact .inl rfl
    · split
      · exact .inr ⟨‹_›, rfl⟩
      · exact .inl rfl

theorem hostRead_eq (off : Offset) (s : State) :
    hostRead off s = { (busRead off s).1 with response := .read (busRead off s).2.1 (busRead off s).2.2 } := rfl

theorem hostWrite_eq (off : Offset) (w : Word) (s : State) :
    hostWrite off w s = { (busWrite off w s).1 with response := .write (busWrite off w s).2 } := rfl

@[simp] theorem windowMap_id : windowMap 0x000#9 = .register .id := rfl
@[simp] theorem windowMap_ctrl : windowMap 0x004#9 = .register .ctrl := rfl
@[simp] theorem windowMap_status : windowMap 0x008#9 = .register .status := rfl
@[simp] theorem windowMap_ie : windowMap 0x00C#9 = .register .ie := rfl
@[simp] theorem windowMap_cmd : windowMap 0x010#9 = .register .cmd := rfl
@[simp] theorem windowMap_srca : windowMap 0x014#9 = .register .srca := rfl
@[simp] theorem windowMap_srcb : windowMap 0x018#9 = .register .srcb := rfl
@[simp] theorem windowMap_dst : windowMap 0x01C#9 = .register .dst := rfl
@[simp] theorem windowMap_len : windowMap 0x020#9 = .register .len := rfl
@[simp] theorem windowMap_keyp : windowMap 0x024#9 = .register .keyp := rfl
@[simp] theorem windowMap_keylen : windowMap 0x028#9 = .register .keylen := rfl
@[simp] theorem windowMap_ivp : windowMap 0x02C#9 = .register .ivp := rfl
@[simp] theorem windowMap_rlen : windowMap 0x030#9 = .register .rlen := rfl

/-- Offset 0x100 + 4j reaches WMEM word j (R66). -/
theorem windowMap_wmem {j : Nat} (h : j < 64) : windowMap (BitVec.ofNat 9 (0x100 + 4 * j)) = .wmemWord j := by
  have hlit : (BitVec.ofNat 9 (0x100 + 4 * j)).toNat = 0x100 + 4 * j := by
    rw [BitVec.toNat_ofNat]
    omega
  have hne : ∀ k : BitVec 9, k.toNat < 0x100 → BitVec.ofNat 9 (0x100 + 4 * j) ≠ k := by
    intro k hk he
    rw [← he, hlit] at hk
    omega
  unfold windowMap
  repeat rw [if_neg (hne _ (by decide))]
  rw [if_neg (by rw [hlit]; omega), hlit]
  congr 1
  omega

@[simp] theorem laneBytes_length (w : Word) : (laneBytes w).length = 4 := rfl

end Sys2Proof.Machine
end

