-- ==== Sys2Proof/Laws/Bytes.lean ====
section
/-! SUPPORT. The small lemmas of the byte functions and the ciphers: the lengths of their results, and their
values on the shapes of list they recurse on. -/

namespace Sys2Proof.Machine

@[simp] theorem zeros_length (n : Nat) : (zeros n).length = n := by simp [zeros]

@[simp] theorem bytesBe_length (v n : Nat) : (bytesBe v n).length = n := by
  induction n generalizing v with
  | zero => rfl
  | succ n ih => simp [bytesBe, ih]

@[simp] theorem xorBytes_length (a b : List Byte) : (xorBytes a b).length = min a.length b.length := by
  simp [xorBytes]

@[simp] theorem shl1Bytes_nil : shl1Bytes [] = [] := rfl

@[simp] theorem shl1Bytes_single (a : Byte) : shl1Bytes [a] = [a <<< 1] := rfl

@[simp] theorem shl1Bytes_cons (a b : Byte) (rest : List Byte) :
    shl1Bytes (a :: b :: rest) = ((a <<< 1) ||| (b >>> 7)) :: shl1Bytes (b :: rest) := rfl

@[simp] theorem shl1Bytes_length (a : List Byte) : (shl1Bytes a).length = a.length := by
  induction a using shl1Bytes.induct with
  | case1 => rfl
  | case2 a => rfl
  | case3 a b rest ih => simpa using ih

@[simp] theorem droppedBit_nil : droppedBit [] = false := rfl

@[simp] theorem droppedBit_cons (a : Byte) (rest : List Byte) : droppedBit (a :: rest) = a.getLsbD 7 := rfl

@[simp] theorem padLength_zero (n : Nat) : padLength n 0 = n := by simp [padLength]

/-- The padded length is never shorter than the operand. -/
theorem padLength_ge (n m : Nat) : n ≤ padLength n m := by
  unfold padLength
  split
  · exact le_refl _
  · have h1 := Nat.div_add_mod n m
    have h2 : n % m < m := Nat.mod_lt _ (by omega)
    rw [Nat.add_mul, Nat.one_mul, Nat.mul_comm]
    omega

@[simp] theorem padBytes_length (a : List Byte) (m : Nat) : (padBytes a m).length = padLength a.length m := by
  have := padLength_ge a.length m
  simp [padBytes]
  omega

@[simp] theorem Column.toBytes_length (c : Column) : c.toBytes.length = 4 := rfl

@[simp] theorem AesState.toBytes_length (s : AesState) : s.toBytes.length = 16 := rfl

@[simp] theorem aesEnc_length (key block : List Byte) : (aesEnc key block).length = 16 := rfl

@[simp] theorem desBytesOf_length (x : BitVec 64) : (desBytesOf x).length = 8 := bytesBe_length _ _

@[simp] theorem tdeaEnc_length (key block : List Byte) : (tdeaEnc key block).length = 8 := bytesBe_length _ _

@[simp] theorem doubled_length (x : List Byte) : (doubled x).length = x.length := by
  unfold doubled
  split <;> simp

@[simp] theorem cmacSubkeys_length (key : List Byte) : (cmacSubkeys key).length = 32 := by
  simp [cmacSubkeys, cmacL]

@[simp] theorem cbcEncrypt_zero (enc : List Byte → List Byte) (bs : Nat) (prev p : List Byte) :
    cbcEncrypt enc bs 0 prev p = [] := rfl

@[simp] theorem cbcEncrypt_succ (enc : List Byte → List Byte) (bs k : Nat) (prev p : List Byte) :
    cbcEncrypt enc bs (k + 1) prev p =
      enc (xorBytes (p.take bs) prev) ++
        cbcEncrypt enc bs k (enc (xorBytes (p.take bs) prev)) (p.drop bs) := rfl

/-- The ciphertext of `k` blocks has `k` times the length of a block. -/
theorem cbcEncrypt_length {enc : List Byte → List Byte} {bs : Nat} (h : ∀ x, (enc x).length = bs)
    (k : Nat) (prev p : List Byte) : (cbcEncrypt enc bs k prev p).length = k * bs := by
  induction k generalizing prev p with
  | zero => simp
  | succ k ih => rw [cbcEncrypt_succ, List.length_append, h, ih, Nat.succ_mul, Nat.add_comm]

/-- The ciphertext of cbc.aes has the length of its plaintext (R157). -/
theorem cbcEncrypt_aes_length {n : Nat} (h : n % Config.aesBlock = 0) (key iv p : List Byte) :
    (cbcEncrypt (aesEnc key) Config.aesBlock (n / Config.aesBlock) iv p).length = n := by
  rw [cbcEncrypt_length (bs := Config.aesBlock) (fun x => aesEnc_length key x)]
  exact Nat.div_mul_cancel (Nat.dvd_of_mod_eq_zero h)

/-- The ciphertext of cbc.tdea has the length of its plaintext (R157). -/
theorem cbcEncrypt_tdea_length {n : Nat} (h : n % Config.tdeaBlock = 0) (key iv p : List Byte) :
    (cbcEncrypt (tdeaEnc key) Config.tdeaBlock (n / Config.tdeaBlock) iv p).length = n := by
  rw [cbcEncrypt_length (bs := Config.tdeaBlock) (fun x => tdeaEnc_length key x)]
  exact Nat.div_mul_cancel (Nat.dvd_of_mod_eq_zero h)

end Sys2Proof.Machine
end

