-- ==== Sys2Proof/Laws/Ops.lean ====
section
/-! SUPPORT. What each shared operation can do, said once: MemRead and MemWrite, the checks, and the completion
step of a decoded command. The meanings are read through these and not unfolded further. -/

namespace Sys2Proof.Machine

theorem memRead_ok {m : Memory} {a n : Nat} (h : a + n ≤ 256) : memRead m a n = .ok (m.bytes a n) :=
  if_pos h

theorem memRead_eq_ok {m : Memory} {a n : Nat} {bs : List Byte} :
    memRead m a n = .ok bs ↔ a + n ≤ 256 ∧ bs = m.bytes a n := by
  unfold memRead Config.wmemBytes
  split <;> simp_all [eq_comm]

theorem memWrite_ok {m : Memory} {a : Nat} {v : List Byte} (h : a + v.length ≤ 256) :
    memWrite m a v = .ok (m.writeBytes a v) :=
  if_pos h

theorem memWrite_eq_ok {m : Memory} {a : Nat} {v : List Byte} {m' : Memory} :
    memWrite m a v = .ok m' ↔ a + v.length ≤ 256 ∧ m' = m.writeBytes a v := by
  unfold memWrite Config.wmemBytes
  split <;> simp_all [eq_comm]

theorem Operand.inWmem_iff (o : Operand) : o.inWmem = true ↔ o.ptr + o.len ≤ 256 :=
  decide_eq_true_iff

theorem rangeError_eq_none {os : List Operand} :
    rangeError os = none ↔ ∀ o ∈ os, o.ptr + o.len ≤ 256 := by
  unfold rangeError
  split <;> simp_all [Operand.inWmem_iff]

theorem rangeError_eq_some {os : List Operand} {e : CmdError} :
    rangeError os = some e ↔ e = .range ∧ ∃ o ∈ os, ¬o.ptr + o.len ≤ 256 := by
  unfold rangeError
  split
  · simp_all [Operand.inWmem_iff]
  · simp_all [Operand.inWmem_iff, eq_comm (a := e)]

theorem aesKeyError_eq_none {k : Nat} : aesKeyError k = none ↔ k = 16 ∨ k = 24 := by
  unfold aesKeyError
  split <;> simp_all

theorem tdeaKeyError_eq_none {k : Nat} : tdeaKeyError k = none ↔ k = 24 := by
  unfold tdeaKeyError
  split <;> simp_all

theorem blockError_eq_none {bs n : Nat} : blockError bs n = none ↔ n ≠ 0 ∧ n % bs = 0 := by
  unfold blockError
  split <;> simp_all

@[simp] theorem firstError_nil : firstError [] = none := rfl

@[simp] theorem firstError_some (e : CmdError) (cs : List (Option CmdError)) :
    firstError (some e :: cs) = some e := rfl

@[simp] theorem firstError_none (cs : List (Option CmdError)) : firstError (none :: cs) = firstError cs := rfl

theorem firstError_eq_none {cs : List (Option CmdError)} : firstError cs = none ↔ ∀ c ∈ cs, c = none := by
  induction cs with
  | nil => simp
  | cons c cs ih => cases c <;> simp [ih]

/-- A command whose checks find an error fails with the first one. -/
theorem runCommand_fails {checks : List (Option CmdError)} {dst : Nat}
    {compute : Memory → Except Fault Result} {s : State} {e : CmdError} (h : firstError checks = some e) :
    runCommand checks dst compute s = .next (s.commandFailed e) := by
  simp only [runCommand, h]

/-- A command that passes its checks and whose result lies inside WMEM succeeds with it. -/
theorem runCommand_succeeds {checks : List (Option CmdError)} {dst : Nat}
    {compute : Memory → Except Fault Result} {s : State} {r : Result} (h : firstError checks = none)
    (hr : compute s.wmem = .ok r) (hd : dst + r.bytes.length ≤ 256) :
    runCommand checks dst compute s = .next (s.commandSucceeded (s.wmem.writeBytes dst r.bytes) r) := by
  simp only [runCommand, h, hr, memWrite_ok hd]

/-- Everything the completion step of a command can do when it gives a next state. -/
theorem runCommand_cases {checks : List (Option CmdError)} {dst : Nat}
    {compute : Memory → Except Fault Result} {s t : State} (h : runCommand checks dst compute s = .next t) :
    (∃ e, firstError checks = some e ∧ t = s.commandFailed e) ∨
    (firstError checks = none ∧ ∃ r, compute s.wmem = .ok r ∧ dst + r.bytes.length ≤ 256 ∧
      t = s.commandSucceeded (s.wmem.writeBytes dst r.bytes) r) := by
  unfold runCommand at h
  split at h
  · exact .inl ⟨_, ‹_›, by simpa [eq_comm] using h⟩
  · refine .inr ⟨‹_›, ?_⟩
    split at h
    · cases h
    · rename_i r hr
      split at h
      · cases h
      · rename_i m hm
        rw [memWrite_eq_ok] at hm
        obtain ⟨hd, rfl⟩ := hm
        exact ⟨r, hr, hd, by simpa [eq_comm] using h⟩

/-- The completion step of a command refuses nothing. -/
theorem runCommand_not_refused {checks : List (Option CmdError)} {dst : Nat}
    {compute : Memory → Except Fault Result} {s : State} {r : Refusal} :
    runCommand checks dst compute s ≠ .refused r := by
  unfold runCommand
  split
  · simp
  · split
    · simp
    · split <;> simp

end Sys2Proof.Machine
end

