-- ==== Sys2Proof/Laws/Meanings.lean ====
section
/-! SUPPORT. What each command computes once its checks have passed, and the one inversion lemma of `exec`:
the next state is that of a failed command or of a succeeded one. -/

namespace Sys2Proof.Machine

theorem cbcCompute_ok {enc : List Byte → List Byte → List Byte} {bs srca len keyp keylen ivp : Nat}
    {m : Memory} (hk : keyp + keylen ≤ 256) (hi : ivp + bs ≤ 256) (hs : srca + len ≤ 256) :
    cbcCompute enc bs srca len keyp keylen ivp m =
      .ok ⟨cbcEncrypt (enc (m.bytes keyp keylen)) bs (len / bs) (m.bytes ivp bs) (m.bytes srca len), none⟩ := by
  simp [cbcCompute, memRead_ok hk, memRead_ok hi, memRead_ok hs, bind, Except.bind, pure, Except.pure]

theorem cmacCompute_ok {keyp keylen : Nat} {m : Memory} (hk : keyp + keylen ≤ 256) :
    cmacCompute keyp keylen m = .ok ⟨cmacSubkeys (m.bytes keyp keylen), none⟩ := by
  simp [cmacCompute, memRead_ok hk, bind, Except.bind, pure, Except.pure]

theorem xorCompute_ok {srca srcb len : Nat} {m : Memory} (ha : srca + len ≤ 256) (hb : srcb + len ≤ 256) :
    xorCompute srca srcb len m = .ok ⟨xorBytes (m.bytes srca len) (m.bytes srcb len), none⟩ := by
  simp [xorCompute, memRead_ok ha, memRead_ok hb, bind, Except.bind, pure, Except.pure]

theorem unaryCompute_ok {f : List Byte → Result} {srca len : Nat} {m : Memory} (hs : srca + len ≤ 256) :
    unaryCompute f srca len m = .ok (f (m.bytes srca len)) := by
  simp [unaryCompute, memRead_ok hs, bind, Except.bind, pure, Except.pure]

/-- Everything a command's completion can do when it gives a next state: it fails, or it stores a result inside
WMEM; only shl1 writes the carry. -/
theorem exec_cases {i : Instr} {s t : State} (h : exec i s = .next t) :
    (∃ e, t = s.commandFailed e) ∨
    (∃ dst r, dst + r.bytes.length ≤ 256 ∧ (r.carry ≠ none → ∃ d a n, i = .shl1 d a n) ∧
      t = s.commandSucceeded (s.wmem.writeBytes dst r.bytes) r) := by
  have key : ∀ {checks dst compute}, runCommand checks dst compute s = .next t →
      (∀ r, compute s.wmem = .ok r → r.carry ≠ none → ∃ d a n, i = .shl1 d a n) →
      (∃ e, t = s.commandFailed e) ∨
      (∃ dst r, dst + r.bytes.length ≤ 256 ∧ (r.carry ≠ none → ∃ d a n, i = .shl1 d a n) ∧
        t = s.commandSucceeded (s.wmem.writeBytes dst r.bytes) r) := by
    intro checks dst compute hrun hc
    obtain ⟨e, -, rfl⟩ | ⟨-, r, hr, hd, rfl⟩ := runCommand_cases hrun
    · exact .inl ⟨e, rfl⟩
    · exact .inr ⟨dst, r, hd, hc r hr, rfl⟩
  have noCarry : ∀ {srca len} {f : List Byte → Result}, (∀ a, (f a).carry = none) →
      ∀ r, unaryCompute f srca len s.wmem = .ok r → r.carry ≠ none → ∃ d a n, i = .shl1 d a n := by
    intro srca len f hf r hr hn
    unfold unaryCompute at hr
    cases hm : memRead s.wmem srca len <;> simp [hm, bind, Except.bind, pure, Except.pure] at hr
    exact absurd (hr ▸ hf _) hn
  cases i with
  | cbcAes dst srca len keyp keylen ivp =>
    refine key h fun r hr hn => absurd ?_ hn
    unfold cbcCompute at hr
    cases h1 : memRead s.wmem keyp keylen <;> cases h2 : memRead s.wmem ivp Config.aesBlock <;>
      cases h3 : memRead s.wmem srca len <;>
      simp [h1, h2, h3, bind, Except.bind, pure, Except.pure] at hr
    rw [← hr]
  | cbcTdea dst srca len keyp keylen ivp =>
    refine key h fun r hr hn => absurd ?_ hn
    unfold cbcCompute at hr
    cases h1 : memRead s.wmem keyp keylen <;> cases h2 : memRead s.wmem ivp Config.tdeaBlock <;>
      cases h3 : memRead s.wmem srca len <;>
      simp [h1, h2, h3, bind, Except.bind, pure, Except.pure] at hr
    rw [← hr]
  | cmacSk dst keyp keylen =>
    refine key h fun r hr hn => absurd ?_ hn
    unfold cmacCompute at hr
    cases h1 : memRead s.wmem keyp keylen <;> simp [h1, bind, Except.bind, pure, Except.pure] at hr
    rw [← hr]
  | xor dst srca srcb len =>
    refine key h fun r hr hn => absurd ?_ hn
    unfold xorCompute at hr
    cases h1 : memRead s.wmem srca len <;> cases h2 : memRead s.wmem srcb len <;>
      simp [h1, h2, bind, Except.bind, pure, Except.pure] at hr
    rw [← hr]
  | shl1 dst srca len => exact key h fun _ _ _ => ⟨dst, srca, len, rfl⟩
  | pad dst srca len m => exact key h (noCarry fun _ => rfl)
  | rev dst srca len => exact key h (noCarry fun _ => rfl)
  | copy dst srca len => exact key h (noCarry fun _ => rfl)

end Sys2Proof.Machine
end

