-- ==== Sys2Proof/Laws/Step.lean ====
section
/-! SUPPORT. What a step can do, said once: the engine's turn, and each of the environment's steps. -/

namespace Sys2Proof.Machine

theorem step_nil {s : State} (h : s.inputs = []) : step s = engineTurn s := by
  simp only [step, h]

theorem step_cons {s : State} {e : Input} {rest : List Input} (h : s.inputs = e :: rest) :
    step s = takeInput e { s with inputs := rest } := by
  simp only [step, h]

theorem engineTurn_pending {s : State} (h : s.pending) : engineTurn s = complete s := by
  simp [engineTurn, h.1, h.2]

theorem engineTurn_not_pending {s : State} (h : ¬s.pending) : engineTurn s = .next s := by
  unfold engineTurn
  rw [if_neg]
  simpa [State.pending] using h

theorem complete_of_decode {s : State} {i : Instr} (h : decodeCommand s.command = .ok i) :
    complete s = exec i s := by
  simp only [complete, h]

theorem complete_of_decode_error {s : State} {e : DecodeError} (h : decodeCommand s.command = .error e) :
    complete s = .next (s.commandFailed (decodeErrorKind e)) := by
  simp only [complete, h]

/-- Everything the completion step can do when it gives a next state. -/
theorem complete_cases {s t : State} (h : complete s = .next t) :
    (∃ e, t = s.commandFailed e) ∨
    (∃ dst r, dst + r.bytes.length ≤ 256 ∧
      (r.carry ≠ none → ∃ d a n, decodeCommand s.command = .ok (.shl1 d a n)) ∧
      t = s.commandSucceeded (s.wmem.writeBytes dst r.bytes) r) := by
  cases hd : decodeCommand s.command with
  | error e =>
    rw [complete_of_decode_error hd] at h
    exact .inl ⟨_, by simpa [eq_comm] using h⟩
  | ok i =>
    rw [complete_of_decode hd] at h
    obtain hf | ⟨dst, r, h1, h2, h3⟩ := exec_cases h
    · exact .inl hf
    · refine .inr ⟨dst, r, h1, fun hc => ?_, h3⟩
      obtain ⟨d, a, n, rfl⟩ := h2 hc
      exact ⟨d, a, n, rfl⟩

/-- Everything one step of the environment can do when it gives a next state. -/
theorem takeInput_cases {e : Input} {s t : State} (h : takeInput e s = .next t) :
    (∃ off, e = .read off ∧ s.rstN = true ∧ t = hostRead off s) ∨
    (∃ off w, e = .write off w ∧ s.rstN = true ∧ t = hostWrite off w s) ∨
    (e = .engineTurn ∧ s.pending ∧ complete s = .next t) ∨
    (e = .engineTurn ∧ ¬s.pending ∧ t = s) ∨
    (e = .resetLow ∧ t = driveReset false s) ∨
    (e = .resetHigh ∧ t = driveReset true s) := by
  cases e with
  | read off =>
    simp only [takeInput] at h
    split at h
    · exact .inl ⟨off, rfl, ‹_›, by simpa [eq_comm] using h⟩
    · cases h
  | write off w =>
    simp only [takeInput] at h
    split at h
    · exact .inr (.inl ⟨off, w, rfl, ‹_›, by simpa [eq_comm] using h⟩)
    · cases h
  | engineTurn =>
    simp only [takeInput] at h
    by_cases hp : s.pending
    · rw [engineTurn_pending hp] at h
      exact .inr (.inr (.inl ⟨rfl, hp, h⟩))
    · rw [engineTurn_not_pending hp] at h
      exact .inr (.inr (.inr (.inl ⟨rfl, hp, by simpa [eq_comm] using h⟩)))
  | resetLow => exact .inr (.inr (.inr (.inr (.inl ⟨rfl, by simpa [takeInput, eq_comm] using h⟩))))
  | resetHigh => exact .inr (.inr (.inr (.inr (.inr ⟨rfl, by simpa [takeInput, eq_comm] using h⟩))))

@[simp] theorem runSteps_zero (s : State) : runSteps 0 s = .next s := rfl

theorem runSteps_succ {n : Nat} {s t : State} (h : step s = .next t) : runSteps (n + 1) s = runSteps n t := by
  simp only [runSteps, h]

/-- Two runs one after the other. -/
theorem runSteps_add {m n : Nat} {s t : State} (h : runSteps m s = .next t) :
    runSteps (m + n) s = runSteps n t := by
  induction m generalizing s with
  | zero =>
    simp only [runSteps_zero] at h
    cases h
    simp
  | succ m ih =>
    rw [Nat.succ_add]
    cases hs : step s with
    | next u =>
      rw [runSteps_succ hs] at h ⊢
      exact ih h
    | fault f => simp [runSteps, hs] at h
    | refused r => simp [runSteps, hs] at h

end Sys2Proof.Machine
end

