-- ==== Sys2Proof/Laws/HostProgram.lean ====
section
/-! SUPPORT. What the host's lines do, said once: a run over a list of transfers, the reads of `rdb`, one read of `poll`, and
what `poll` does with it. -/

namespace Sys2Proof.Machine

theorem runInputs_nil (s : State) : runInputs s [] = .next { s with inputs := [] } := rfl

/-- A run over a list is its first step, then the run over the rest. -/
theorem runInputs_cons {e : Input} {es : List Input} {s t : State}
    (h : takeInput e { s with inputs := es } = .next t) : runInputs s (e :: es) = runSteps es.length t :=
  runSteps_succ ((step_cons rfl).trans h)

/-- What `poll`'s check makes of STATUS, by its fields (R33, R107). -/
theorem pollCheck_toWord (st : Status) :
    pollCheck st.toWord = if st.busy then .again else if st.err then .failure st.errcode else .success := by
  have h : ∀ (b d e c a : Bool) (k : BitVec 4),
      pollCheck (Status.mk b d e c a k).toWord = if b then .again else if e then .failure k else .success := by
    decide +kernel
  exact h _ _ _ _ _ _

/-- A run of one read. -/
theorem runInputs_rd {off : Offset} {s : State} (h : s.rstN = true) :
    runInputs s [rd off] = .next (hostRead off { s with inputs := [] }) := by
  refine (runInputs_cons (t := hostRead off { s with inputs := [] }) ?_).trans rfl
  simp only [rd, takeInput, h, if_true]

/-- A read through the WMEM window while idle changes nothing but the answer (R66, R68). -/
theorem hostRead_wmem_idle {j : Nat} {s : State} (hj : j < 64) (hb : s.status.busy = false) :
    hostRead (wmemOffset j) s = { s with response := .read (wmemLanes s.wmem j) false } := by
  have hm : misaligned (wmemOffset j) = false := by
    rw [misaligned_eq_false, wmemOffset, BitVec.toNat_ofNat]
    omega
  have hw : windowMap (wmemOffset j) = .wmemWord j := windowMap_wmem hj
  simp [hostRead, busRead, hm, hw, hb]

/-- One read of `poll` changes nothing but the answer (R68), and its check sees the STATUS of the state. -/
theorem pollRead_eq {s : State} (h : s.rstN = true) :
    pollRead s = .next ({ s with inputs := [], response := .read s.status.toWord false },
      pollCheck s.status.toWord) := by
  have : hostRead 0x008#9 { s with inputs := [] } =
      { s with inputs := [], response := .read s.status.toWord false } := rfl
  simp [pollRead, runInputs_rd h, this, pollAnswer]

@[simp] theorem runReads_nil (s : State) : runReads [] s = .next ({ s with inputs := [] }, []) := rfl

/-- Reads are the first one, then the rest from where it leads. -/
theorem runReads_cons {off : Offset} {rest : List Offset} {s u : State} {words : List Word} (h : s.rstN = true)
    (hu : runReads rest (hostRead off { s with inputs := [] }) = .next (u, words)) :
    runReads (off :: rest) s =
      .next (u, readData (hostRead off { s with inputs := [] }).response :: words) := by
  simp only [runReads, runInputs_rd h, hu]

/-- `rdb` is its reads, of which it keeps the covered lanes (R106). -/
theorem runRdb_eq {a n : Nat} {s t : State} {words : List Word}
    (h : runReads (rdbOffsets a n) s = .next (t, words)) : runRdb a n s = .next (t, rdbBytes a n words) := by
  simp only [runRdb, h]

/-- The engine's turn of `poll`. -/
theorem poll_zero {s t : State} (h : engineTurn { s with inputs := [] } = .next t) : poll 0 s = pollRead t := by
  have : runInputs s [.engineTurn] = .next t :=
    (runInputs_cons (show takeInput .engineTurn { s with inputs := [] } = .next t from h)).trans rfl
  simp [poll, this]

/-- A read that finds BUSY = 1 is followed by the rest of `poll`. -/
theorem poll_succ_busy {n : Nat} {s : State} (hr : s.rstN = true) (hb : s.status.busy = true) :
    poll (n + 1) s = poll n { s with inputs := [], response := .read s.status.toWord false } := by
  simp [poll, pollRead_eq hr, pollCheck_toWord, hb]

/-- A read that finds BUSY = 0 ends `poll`. -/
theorem poll_succ_idle {n : Nat} {s : State} (hr : s.rstN = true) (hb : s.status.busy = false) :
    poll (n + 1) s = pollRead s := by
  rw [pollRead_eq hr, pollCheck_toWord, hb]
  cases he : s.status.err <;> simp [poll, pollRead_eq hr, pollCheck_toWord, hb, he]

/-- The transfers of a line the assembler accepts (R104). -/
theorem commandTransfers_wellFormed {i : Instr} (hw : i.wellFormed = true) :
    commandTransfers i = operandTransfers i ++ [.write 0x010 i.cmdWord, .write 0x004 0x00000001#32] := by
  simp only [commandTransfers, hw, if_true]

/-- A rejected line has no transfers (R103). -/
theorem commandTransfers_rejected {i : Instr} (hw : i.wellFormed = false) : commandTransfers i = [] := by
  simp [commandTransfers, hw]

/-- A command line is its transfers and then `poll` (R104). -/
theorem runCommandLine_eq {n : Nat} {i : Instr} {s t : State} (hw : i.wellFormed = true)
    (h : runInputs s (commandTransfers i) = .next t) :
    runCommandLine n i s = lineResult (fun _ r => .polled r) (poll n t) := by
  simp only [runCommandLine, hw, if_true, h]

/-- A command line that the assembler rejects changes nothing (R103). -/
theorem runCommandLine_rejected {n : Nat} {i : Instr} {s : State} (hw : i.wellFormed = false) :
    runCommandLine n i s = .next (s, .rejected) := by
  simp [runCommandLine, hw]

/-- A program of accepted lines is its lines one after the other. -/
theorem runProgram_accepted {program : List (Line × Nat)} {s : State} (h : ∀ l ∈ program, l.1.accepted = true) :
    runProgram program s = runLines program s :=
  if_pos (List.all_eq_true.mpr h)

/-- A program that holds a rejected line changes nothing (R103). -/
theorem runProgram_rejected {program : List (Line × Nat)} {s : State} {l : Line × Nat} (hl : l ∈ program)
    (hr : l.1.accepted = false) : runProgram program s = .next (s, [.rejected]) := by
  refine if_neg fun h => ?_
  have := List.all_eq_true.mp h l hl
  rw [hr] at this
  cases this

end Sys2Proof.Machine
end

