-- ==== Sys2Proof/Laws/PerInstr.lean ====
section
/-! SUPPORT. The family CanonicalWord, one lemma per constructor of `Instr`: the command word an instruction is
written with is stored by CMD whole and reads back as itself (30_encoding.md R99, R104; 10_state.md R41). -/

namespace Sys2Proof.Laws

/-- Every bit of the canonical command word is one that CMD stores, and the image is eight words (R41, R99). -/
def CanonicalWord.Statement (i : Instr) : Prop :=
  i.wellFormed = true → (CmdWord.ofWord i.cmdWord).toWord = i.cmdWord ∧ (encode i).length = 8

theorem CanonicalWord.cbcAes (dst srca len keyp keylen ivp : Nat) :
    CanonicalWord.Statement (.cbcAes dst srca len keyp keylen ivp) := fun _ => ⟨by simp only [Instr.cmdWord]; decide, rfl⟩

theorem CanonicalWord.cbcTdea (dst srca len keyp keylen ivp : Nat) :
    CanonicalWord.Statement (.cbcTdea dst srca len keyp keylen ivp) := fun _ => ⟨by simp only [Instr.cmdWord]; decide, rfl⟩

theorem CanonicalWord.cmacSk (dst keyp keylen : Nat) :
    CanonicalWord.Statement (.cmacSk dst keyp keylen) := fun _ => ⟨by simp only [Instr.cmdWord]; decide, rfl⟩

theorem CanonicalWord.xor (dst srca srcb len : Nat) :
    CanonicalWord.Statement (.xor dst srca srcb len) := fun _ => ⟨by simp only [Instr.cmdWord]; decide, rfl⟩

theorem CanonicalWord.shl1 (dst srca len : Nat) :
    CanonicalWord.Statement (.shl1 dst srca len) := fun _ => ⟨by simp only [Instr.cmdWord]; decide, rfl⟩

theorem CanonicalWord.pad (dst srca len m : Nat) :
    CanonicalWord.Statement (.pad dst srca len m) := by
  intro h
  refine ⟨?_, rfl⟩
  have hm : m < 256 := by
    simp [Instr.wellFormed, fitsImm] at h
    exact h.2
  have all : ∀ k : Fin 256, (CmdWord.ofWord (0x00000012#32 ||| (BitVec.ofNat 32 k.val <<< 16))).toWord =
      0x00000012#32 ||| (BitVec.ofNat 32 k.val <<< 16) := by decide +kernel
  exact all ⟨m, hm⟩

theorem CanonicalWord.rev (dst srca len : Nat) :
    CanonicalWord.Statement (.rev dst srca len) := fun _ => ⟨by simp only [Instr.cmdWord]; decide, rfl⟩

theorem CanonicalWord.copy (dst srca len : Nat) :
    CanonicalWord.Statement (.copy dst srca len) := fun _ => ⟨by simp only [Instr.cmdWord]; decide, rfl⟩

end Sys2Proof.Laws
end

