-- ==== Sys2Proof/Tests/Slice0.lean ====
section
/-! SUPPORT. The model's own tests, with expected values from spec/ (95_test_vectors.md, 30_encoding.md R108), and for
every statement with hypotheses a witness that meets them. -/

namespace Sys2Proof.Tests

open Sys2Proof.Machine

/-- The bytes of a big-endian number of `n` bytes. -/
def hex (n v : Nat) : List Byte := bytesBe v n

/-- Reset with bytes stored in WMEM. -/
def loaded (cells : List (Nat × List Byte)) : State :=
  { State.reset with wmem := cells.foldl (fun m c => m.writeBytes c.1 c.2) [] }

/-- A command pending with the given words in CMD and the operand registers. -/
def pendingWords (ws : List Word) (s : State) : State := (s.withCommand (Command.ofWords ws)).start

/-- What a test looks at after a next state: STATUS, RLEN and bytes of WMEM. -/
def seen (o : Host.Outcome State Fault Refusal) (a n : Nat) : Option (Word × Nat × List Byte) :=
  match o with
  | .next t => some (t.status.toWord, t.rlen.toNat, t.wmem.bytes a n)
  | _ => none

/-- Like `seen`, for an answer of the bus. -/
def answer (o : Host.Outcome State Fault Refusal) : Option (Response × Word) :=
  match o with
  | .next t => some (t.response, t.status.toWord)
  | _ => none

/-! ### WellFormed: each check refuses an ill-formed term (R103) -/

theorem test_wf_ten_bit_pointer_refused : fitsRegister 512 = false ∧ fitsRegister 511 = true := by decide
theorem test_wf_nine_bit_modulus_refused : fitsImm 256 = false ∧ fitsImm 255 = true := by decide
theorem test_wf_cbcAes_refused : (Instr.cbcAes 0 0 0 0 0 512).wellFormed = false := by decide
theorem test_wf_cbcTdea_refused : (Instr.cbcTdea 0 0 0 512 24 0).wellFormed = false := by decide
theorem test_wf_cmacSk_refused : (Instr.cmacSk 0 0 512).wellFormed = false := by decide
theorem test_wf_xor_refused : (Instr.xor 0 0 512 0).wellFormed = false := by decide
theorem test_wf_shl1_refused : (Instr.shl1 512 0 0).wellFormed = false := by decide
theorem test_wf_pad_refused : (Instr.pad 0 0 0 256).wellFormed = false := by decide
theorem test_wf_rev_refused : (Instr.rev 0 512 0).wellFormed = false := by decide
theorem test_wf_copy_refused : (Instr.copy 0 0 512).wellFormed = false := by decide

/-! ### Decode: words written out from R91 and R95, OP in bits 7:0, ALG in 10:8, IMM in 23:16 -/

/-- OP 00000001, ALG 000; IMM and the bits that are not stored set, all ignored. -/
theorem test_decode_cbcAes :
    decode [0b11111111111111111111100000000001#32, 0x020#32, 0x1FF#32, 0x060#32, 0x020#32, 0x001#32, 0x010#32,
      0x012#32] = .ok (.cbcAes 0x60 0x20 32 0x01 16 0x12) := by decide

/-- OP 00000001, ALG 001: the last line of R108. -/
theorem test_decode_cbcTdea :
    decode [0b00000000000000000000000100000001#32, 0x038#32, 0x000#32, 0x040#32, 0x008#32, 0x010#32, 0x018#32,
      0x028#32] = .ok (.cbcTdea 0x40 0x38 8 0x10 24 0x28) := by decide

/-- OP 00000010, ALG 000. -/
theorem test_decode_cmacSk :
    decode [0b00000000101010110000000000000010#32, 0x1FF#32, 0x1FF#32, 0x040#32, 0x1FF#32, 0x003#32, 0x010#32,
      0x1FF#32] = .ok (.cmacSk 0x40 0x03 16) := by decide

/-- OP 00010000; ALG 111 is ignored. -/
theorem test_decode_xor :
    decode [0b00000000000000000000011100010000#32, 0x030#32, 0x050#32, 0x034#32, 0x010#32] =
      .ok (.xor 0x34 0x30 0x50 16) := by decide

/-- OP 00010001. -/
theorem test_decode_shl1 :
    decode [0b00000000000000000000000000010001#32, 0x005#32, 0x000#32, 0x006#32, 0x007#32] =
      .ok (.shl1 6 5 7) := by decide

/-- OP 00010010, IMM 00100000. -/
theorem test_decode_pad :
    decode [0b00000000001000000000000000010010#32, 0x020#32, 0x000#32, 0x021#32, 0x013#32] =
      .ok (.pad 0x21 0x20 19 32) := by decide

/-- OP 00010011; operand bits 31:9 are not stored. -/
theorem test_decode_rev :
    decode [0b00000000000000000000000000010011#32, 0xFFFFFE28#32, 0x000#32, 0x029#32, 0x003#32] =
      .ok (.rev 0x29 0x28 3) := by decide

/-- OP 00010100. -/
theorem test_decode_copy :
    decode [0b00000000000000000000000000010100#32, 0x001#32, 0x000#32, 0x002#32, 0x1FF#32] =
      .ok (.copy 2 1 511) := by decide

/-- R97: OP 0x03 and 0x15 are in no row; ALG 7 of OP 0x01 and ALG 1 of OP 0x02 are no cipher. -/
theorem test_decode_refuses :
    decode [0x00000003#32] = .error .illegalOp ∧ decode [0x00000015#32] = .error .illegalOp ∧
    decode [] = .error .illegalOp ∧
    decode [0x00000701#32] = .error .badAlg ∧ decode [0x00000102#32] = .error .badAlg := by decide

/-- The table's numbering: the command word in bits 31:0, operand words above it. -/
theorem test_decodeTableWord :
    decodeTableWord 32 0x00AB0012 = some (.pad 0 0 0 0xAB) ∧
    decodeTableWord 64 0x0000001200000014 = some (.copy 0 0x12 0) ∧ decodeTableWord 32 0 = none := by decide

/-- R108: the command words the assembler emits. -/
theorem test_cmdWords :
    (Instr.rev 0x28 0x28 3).cmdWord = 0x00000013#32 ∧ (Instr.pad 0x20 0x20 19 32).cmdWord = 0x00200012#32 ∧
    (Instr.cbcTdea 0x40 0x38 8 0x10 24 0x28).cmdWord = 0x00000101#32 := by decide

/-- What the host asks: the first step after reset runs the word. PAD of an empty operand succeeds; cbc.aes with
KEYLEN = 0 fails with KEY_FORMAT. -/
theorem test_withFetchWord :
    seen (step (State.reset.withFetchWord 32 0x00200012)) 0 0 = some (0x00000002#32, 0, []) ∧
    seen (step (State.reset.withFetchWord 32 0x00000001)) 0 0 = some (0x00000306#32, 0, []) := by decide

/-! ### The commands: rows of 95_test_vectors.md L2.1 -/

/-- X1. -/
theorem test_xor_basic :
    seen (exec (.xor 8 0 4 4) (loaded [(0, hex 8 0x0FF0AA55FFFF0055)]).start) 8 4 =
      some (0x00000002#32, 4, hex 4 0xF00FAA00) := by decide +kernel

/-- X6: SRCB + LEN = 257 fails with RANGE, nothing written. -/
theorem test_xor_range :
    seen (exec (.xor 0 0 0xF8 9) (loaded [(0, hex 4 0x11111111)]).start) 0 4 =
      some (0x00000506#32, 0, hex 4 0x11111111) := by decide +kernel

/-- S1. -/
theorem test_shl1_carry :
    seen (exec (.shl1 4 0 2) (loaded [(0, hex 2 0x8001)]).start) 4 2 =
      some (0x0000000A#32, 2, hex 2 0x0002) := by decide +kernel

/-- S8: RANGE with C = 1 keeps C. -/
theorem test_shl1_range_keeps_carry :
    seen (exec (.shl1 0 0xFF 2)
      { (loaded []).start with status := { Status.reset with busy := true, c := true } }) 0 2 =
      some (0x0000050E#32, 0, hex 2 0) := by decide +kernel

/-- PD6: in place over old bytes. -/
theorem test_pad_in_place :
    seen (exec (.pad 0 0 19 32)
      (loaded [(0, hex 32 0x0102030405060708090A0B0C0D0E0F10111213FFFFFFFFFFFFFFFFFFFFFFFFFF)]).start) 0 32 =
      some (0x00000002#32, 32, hex 32 0x0102030405060708090A0B0C0D0E0F1011121300000000000000000000000000) := by
  decide +kernel

/-- PD7: RANGE on the padded length. -/
theorem test_pad_range :
    seen (exec (.pad 0xF0 0 5 32) (loaded [(0, hex 5 0x0102030405)]).start) 0xF0 16 =
      some (0x00000506#32, 0, zeros 16) := by decide +kernel

/-- RV1. -/
theorem test_rev_aid :
    seen (exec (.rev 4 0 3) (loaded [(0, hex 3 0xF54230)]).start) 4 3 =
      some (0x00000002#32, 3, hex 3 0x3042F5) := by decide +kernel

/-- RV5: DST + 3 = 257. -/
theorem test_rev_range :
    seen (exec (.rev 0xFE 0 3) (loaded [(0, hex 3 0xF54230)]).start) 0xFD 3 =
      some (0x00000506#32, 0, zeros 3) := by decide +kernel

/-- CP1: overlap with DST above SRCA. -/
theorem test_copy_overlap :
    seen (exec (.copy 1 0 4) (loaded [(0, hex 5 0x1122334455)]).start) 0 5 =
      some (0x00000002#32, 4, hex 5 0x1111223344) := by decide +kernel

/-- CP4: SRCA = 256 with LEN = 1. -/
theorem test_copy_range :
    seen (exec (.copy 0 0x100 1) (loaded [(0, hex 5 0x1122334455)]).start) 0 5 =
      some (0x00000506#32, 0, hex 5 0x1122334455) := by decide +kernel

/-- A2: FIPS-197 C.2, AES-192. -/
theorem test_cbcAes_aes192 :
    seen (exec (.cbcAes 0x40 0x20 16 0 24 0x30)
      (loaded [(0, hex 24 0x000102030405060708090A0B0C0D0E0F1011121314151617),
        (0x20, hex 16 0x00112233445566778899AABBCCDDEEFF)]).start) 0x40 16 =
      some (0x00000002#32, 16, hex 16 0xDDA97CA4864CDFE06EAF70A0EC0D7191) := by decide +kernel

/-- A4, the first two blocks: SP 800-38A F.2.1, a non-zero IV, in place. -/
theorem test_cbcAes_chain_in_place :
    seen (exec (.cbcAes 0x20 0x20 32 0 16 0x10)
      (loaded [(0, hex 16 0x2B7E151628AED2A6ABF7158809CF4F3C), (0x10, hex 16 0x000102030405060708090A0B0C0D0E0F),
        (0x20, hex 32 0x6BC1BEE22E409F96E93D7E117393172AAE2D8A571E03AC9C9EB76FAC45AF8E51)]).start) 0x20 32 =
      some (0x00000002#32, 32, hex 32 0x7649ABAC8119B246CEE98E9B12E9197D5086CB9B507219EE95DB113A917678B2) := by
  decide +kernel

/-- T3: two blocks under a two-key key. -/
theorem test_cbcTdea_two_blocks :
    seen (exec (.cbcTdea 0x30 0x20 16 0 24 0x18)
      (loaded [(0, hex 24 0x0123456789ABCDEFFEDCBA98765432100123456789ABCDEF),
        (0x20, hex 16 0x00271B12206AE86FFEDCBA9876543210)]).start) 0x30 16 =
      some (0x00000002#32, 16, hex 16 0x7BAA6C97BDA36BFF24445AFFA0B58CF6) := by decide +kernel

/-- T5: KEYLEN = 16 fails with KEY_FORMAT. -/
theorem test_cbcTdea_key_format :
    seen (exec (.cbcTdea 0x30 0x20 8 0 16 0x18) (loaded [(0, hex 2 0x0123)]).start) 0x30 8 =
      some (0x00000306#32, 0, zeros 8) := by decide +kernel

/-- CK3: SP 800-38B, AES-192. -/
theorem test_cmacSk_aes192 :
    seen (exec (.cmacSk 0x40 0 24)
      (loaded [(0, hex 24 0x8E73B0F7DA0E6452C810F32B809079E562F8EAD2522C6B7B)]).start) 0x40 32 =
      some (0x00000002#32, 32, hex 32 0x448A5B1C93514B273EE6439DD4DAA2968914B63926A2964E7DCC873BA9B5452C) := by
  decide +kernel

/-- CK4: DST = KEYP overwrites the key. -/
theorem test_cmacSk_over_its_key :
    seen (exec (.cmacSk 0 0 16) (loaded [(0, hex 16 0x00112233445566778899AABBCCDDEEFF)]).start) 0 32 =
      some (0x00000002#32, 32, hex 32 0xFBC9F75C9413C041DFEE452D3F0706D1F793EEB928278083BFDC8A5A7E0E0D25) := by
  decide +kernel

/-- R176: the DES check value. -/
theorem test_des_check_value :
    desEnc 0x133457799BBCDFF1#64 0x0123456789ABCDEF#64 = 0x85E813540F0AB405#64 := by decide +kernel

/-! ### Illegal command words: rows I1, I3 and A11 -/

theorem test_illegal_op_before_bad_alg :
    seen (step (pendingWords [0x00000000#32] State.reset)) 0 0 = some (0x00000106#32, 0, []) ∧
    seen (step (pendingWords [0x000005FF#32] State.reset)) 0 0 = some (0x00000106#32, 0, []) := by decide

theorem test_bad_alg_before_key_format :
    seen (step (pendingWords [0x00000201#32, 0x020#32, 0#32, 0x040#32, 0x010#32, 0#32, 1#32, 0x010#32]
      State.reset)) 0 0 = some (0x00000206#32, 0, []) := by decide

/-! ### The bus: transfers of the traces B2 to B8 -/

/-- One input, and the state it leaves. -/
def one (e : Input) (s : State) : Host.Outcome State Fault Refusal := step { s with inputs := [e] }

/-- B2: CMD after a write of all ones. -/
theorem test_bus_cmd_reads_stored_bits :
    answer (one (rd 0x010#9) { State.reset with cmd := CmdWord.ofWord 0xFFFFFFFF#32 }) =
      some (.read 0x00FF07FF#32 false, 0#32) := by decide

/-- B3: the lanes of 0x33221100. -/
theorem test_bus_lanes :
    seen (one (wr 0x100#9 0x33221100) State.reset) 0 4 = some (0#32, 0, hex 4 0x00112233) ∧
    answer (one (rd 0x100#9) (loaded [(0, hex 4 0x00112233)])) = some (.read 0x33221100#32 false, 0#32) := by
  decide

/-- B4: misaligned. -/
theorem test_bus_misaligned :
    answer (one (wr 0x102#9 0xFFFFFFFF) State.reset) = some (.write true, 0#32) ∧
    answer (one (rd 0x00A#9) State.reset) = some (.read 0#32 true, 0#32) := by decide

/-- B5: a register write and a WMEM read while BUSY, and the W1C write of 0x12. -/
theorem test_bus_busy_hazard :
    answer (one (wr 0x014#9 0x10) State.reset.start) = some (.write false, 0x00000011#32) ∧
    answer (one (rd 0x100#9) State.reset.start) = some (.read 0#32 false, 0x00000011#32) ∧
    answer (one (wr 0x008#9 0x12)
      { State.reset with status := { Status.reset with done := true, accerr := true } }) =
      some (.write false, 0#32) := by decide

/-- B6: soft reset while BUSY removes the command and clears CMD. -/
theorem test_bus_soft_reset_busy :
    step { (pendingWords [0x00000011#32] State.reset) with inputs := [wr 0x004#9 2] } =
      .next { State.reset with response := .write false } := rfl

/-- B8: START keeps C, clears DONE, ERR and ERRCODE. -/
theorem test_bus_start_keeps_carry :
    answer (one (wr 0x004#9 1) { State.reset with status := ⟨false, true, true, true, false, 1#4⟩ }) =
      some (.write false, 0x00000009#32) := by decide

/-- R236: setting DONEIE while DONE = 1 raises irq at once. -/
theorem test_irq_level :
    ({ State.reset with ie := true, status := { Status.reset with done := true } } : State).irq = true ∧
    ({ State.reset with status := { Status.reset with done := true } } : State).irq = false := by decide

/-! ### The host's lines -/

/-- What a test looks at after the host's lines: what they gave the host, STATUS, RLEN and bytes of WMEM. -/
def ended (o : Host.Outcome (State × List LineResult) Fault Refusal) (a n : Nat) :
    Option (List LineResult × Word × Nat × List Byte) :=
  match o with
  | .next (t, r) => some (r, t.status.toWord, t.rlen.toNat, t.wmem.bytes a n)
  | _ => none

/-- P1, line 3, with AID where line 2 puts it: two reads of STATUS find BUSY = 1; and an `rdb` of the result, across
two words of WMEM. -/
theorem test_program_rev :
    ended (runProgram [(.ldb 0x28 (hex 3 0xF54230), 0), (.command (.rev 0x2A 0x28 3), 2), (.rdb 0x2A 3, 0)]
      State.reset) 0x2A 3 =
      some ([.written, .polled .success, .bytes (hex 3 0x3042F5)], 0x00000002#32, 3, hex 3 0x3042F5) := by decide +kernel

/-- R107: a program stops at the poll that finds ERR; the copy after the xor of row X6 does not run. -/
theorem test_program_stops_on_failure :
    ended (runProgram [(.command (.xor 0 0 0xF8 9), 0), (.command (.copy 0 1 1), 0)] State.reset) 0 1 =
      some ([.polled (.failure 5#4)], 0x00000506#32, 0, zeros 1) := by decide +kernel

/-- R103: ten bits for a register operand, nine for M; the line is rejected, and no line of its program runs. -/
theorem test_program_rejects :
    ended (runProgram [(.ldb 0 (hex 1 0xAA), 0), (.command (.copy 512 0 1), 0)] State.reset) 0 1 =
      some ([.rejected], 0#32, 0, zeros 1) ∧
    commandTransfers (.pad 0 0 1 256) = [] ∧ (commandTransfers (.pad 511 0 1 255)).length = 5 := by decide +kernel

/-! ### Witnesses: states and operands that meet the hypotheses of each statement, at the edges of their ranges -/

/-- A pending command over a WMEM with a byte in it. -/
def revPending : State :=
  pendingWords [0x00000013#32, 0x0FD#32, 0#32, 0x0FD#32, 3#32] (loaded [(0xFF, hex 1 0xAA)])

theorem witness_DecodeOfEncodeIsTheInstruction :
    (Instr.pad 511 511 511 255).wellFormed = true ∧
      (Instr.cbcAes 511 511 511 511 511 511).wellFormed = true := by decide

theorem witness_DecodedInstructionIsWellFormed :
    decode [0xFFFFFF12#32, 0xFFFFFFFF#32, 0#32, 0xFFFFFFFF#32, 0xFFFFFFFF#32] =
      .ok (.pad 511 511 511 255) := by decide

/-- The hypotheses of `Obligations.IgnoredFieldsDoNotMatter`, on two commands that differ. -/
abbrev agreeOnReads (c d : Command) : Prop :=
  c.cmd.op = d.cmd.op ∧ (c.cmd.op = 0x01#8 ∨ c.cmd.op = 0x02#8 → c.cmd.alg = d.cmd.alg) ∧
    (c.cmd.op = 0x12#8 → c.cmd.imm = d.cmd.imm) ∧ c.dst = d.dst ∧
    (c.cmd.op ≠ 0x02#8 → c.srca = d.srca ∧ c.len = d.len) ∧ (c.cmd.op = 0x10#8 → c.srcb = d.srcb) ∧
    (c.cmd.op = 0x01#8 ∨ c.cmd.op = 0x02#8 → c.keyp = d.keyp ∧ c.keylen = d.keylen) ∧
    (c.cmd.op = 0x01#8 → c.ivp = d.ivp) ∧ c ≠ d

/-- Two commands that differ only in fields their OP ignores, for OP 0x01, 0x02, 0x10 and 0x12. -/
theorem witness_IgnoredFieldsDoNotMatter :
    agreeOnReads ⟨⟨0x01#8, 1#3, 0x00#8⟩, 1#9, 2#9, 3#9, 4#9, 5#9, 6#9, 7#9⟩
      ⟨⟨0x01#8, 1#3, 0xFF#8⟩, 1#9, 511#9, 3#9, 4#9, 5#9, 6#9, 7#9⟩ ∧
    agreeOnReads ⟨⟨0x02#8, 0#3, 0x00#8⟩, 1#9, 2#9, 3#9, 4#9, 5#9, 6#9, 7#9⟩
      ⟨⟨0x02#8, 0#3, 0xFF#8⟩, 8#9, 9#9, 3#9, 10#9, 5#9, 6#9, 11#9⟩ ∧
    agreeOnReads ⟨⟨0x10#8, 0#3, 0x00#8⟩, 1#9, 2#9, 3#9, 4#9, 5#9, 6#9, 7#9⟩
      ⟨⟨0x10#8, 7#3, 0xFF#8⟩, 1#9, 2#9, 3#9, 4#9, 8#9, 9#9, 10#9⟩ ∧
    agreeOnReads ⟨⟨0x12#8, 0#3, 0x20#8⟩, 1#9, 2#9, 3#9, 4#9, 5#9, 6#9, 7#9⟩
      ⟨⟨0x12#8, 7#3, 0x20#8⟩, 1#9, 0#9, 3#9, 4#9, 0#9, 0#9, 0#9⟩ := by simp [agreeOnReads]

theorem witness_StepRunsTheDecodedCommand :
    revPending.pending ∧ revPending.engineMoves ∧
      ({ revPending with inputs := [.engineTurn, rd 0x008#9] } : State).engineMoves ∧
      decodeCommand revPending.command = .ok (.rev 0xFD 0xFD 3) :=
  ⟨by decide, .inl rfl, .inr ⟨_, rfl⟩, by decide⟩

theorem witness_UnmappedOpFailsWithCodeOne :
    (pendingWords [0x000000FF#32] State.reset).cmd.op ∉
      [0x01#8, 0x02#8, 0x10#8, 0x11#8, 0x12#8, 0x13#8, 0x14#8] := by decide +kernel

/-- The lowest and the highest ALG that is no cipher, for OP 0x01 and for OP 0x02. -/
theorem witness_UnsupportedAlgFailsWithCodeTwo :
    (CmdWord.ofWord 0x00000201#32).op = 0x01#8 ∧ 2 ≤ (CmdWord.ofWord 0x00000201#32).alg.toNat ∧
    (CmdWord.ofWord 0x00000701#32).op = 0x01#8 ∧ 2 ≤ (CmdWord.ofWord 0x00000701#32).alg.toNat ∧
    (CmdWord.ofWord 0x00000102#32).op = 0x02#8 ∧ 1 ≤ (CmdWord.ofWord 0x00000102#32).alg.toNat ∧
    (CmdWord.ofWord 0x00000702#32).op = 0x02#8 ∧ 1 ≤ (CmdWord.ofWord 0x00000702#32).alg.toNat ∧
    (pendingWords [0x00000201#32] State.reset).cmd = CmdWord.ofWord 0x00000201#32 :=
  ⟨by decide, by decide, by decide, by decide, by decide, by decide, by decide, by decide, rfl⟩

/-- Operands that end at byte 255 exactly, and an empty one at 256. -/
theorem witness_XorStoresTheBytewiseXor :
    (loaded [(0xF0, hex 2 0x0102)]).wmem.wf = true ∧
      (0xF0 + 16 ≤ 256 ∧ 0x00 + 16 ≤ 256 ∧ 0xF0 + 16 ≤ 256) ∧ 256 + 0 ≤ 256 := by decide

theorem witness_Shl1StoresTheShiftAndTheCarry :
    (loaded [(0xFE, hex 2 0x8001)]).wmem.wf = true ∧ (0xFE + 2 ≤ 256 ∧ 0xFE + 2 ≤ 256) ∧ 256 + 0 ≤ 256 := by
  decide

/-- PD8: n' = 255 from DST = 1 ends at 256. -/
theorem witness_PadStoresTheOperandAndZeros :
    (loaded [(0, hex 1 0xAA)]).wmem.wf = true ∧ 0 + 1 ≤ 256 ∧ 1 + padLength 1 255 ≤ 256 ∧
      padLength 1 255 = 255 := by decide

theorem witness_RevStoresTheBytesReversed :
    revPending.wmem.wf = true ∧ 0xFD + 3 ≤ 256 ∧ 0xFD + 3 ≤ 256 := by decide

theorem witness_CopyStoresTheSourceBytes :
    revPending.wmem.wf = true ∧ 0xFC + 4 ≤ 256 ∧ 0xFB + 4 ≤ 256 := by decide

theorem witness_CbcAesStoresTheChainedBlocks :
    revPending.wmem.wf = true ∧ ((16 : Nat) = 16 ∨ (16 : Nat) = 24) ∧ ((24 : Nat) = 16 ∨ (24 : Nat) = 24) ∧
      (32 : Nat) ≠ 0 ∧ 32 % 16 = 0 ∧ 0xE0 + 32 ≤ 256 ∧ 0xE0 + 32 ≤ 256 ∧ 0xE8 + 24 ≤ 256 ∧ 0xF0 + 16 ≤ 256 := by
  decide

theorem witness_CbcTdeaStoresTheChainedBlocks :
    revPending.wmem.wf = true ∧ (24 : Nat) = 24 ∧ (8 : Nat) ≠ 0 ∧ 8 % 8 = 0 ∧ 0xF8 + 8 ≤ 256 ∧ 0xF8 + 8 ≤ 256 ∧
      0xE8 + 24 ≤ 256 ∧ 0xF8 + 8 ≤ 256 := by decide

theorem witness_CmacSkStoresBothSubkeys :
    revPending.wmem.wf = true ∧ ((24 : Nat) = 16 ∨ (24 : Nat) = 24) ∧ 0xE8 + 24 ≤ 256 ∧ 0xE0 + 32 ≤ 256 := by
  decide

theorem witness_WrongKeyLengthFailsWithCodeThree :
    ¬Instr.keyAccepted (.cbcAes 0 0 16 0 32 0) ∧ ¬Instr.keyAccepted (.cbcTdea 0 0 8 0 16 0) ∧
      ¬Instr.keyAccepted (.cmacSk 0 0 1) := by simp [Instr.keyAccepted]

theorem witness_UnalignedLengthFailsWithCodeFour :
    (Instr.keyAccepted (.cbcAes 0 0 0 0 16 0) ∧ ¬Instr.lengthAccepted (.cbcAes 0 0 0 0 16 0)) ∧
    (Instr.keyAccepted (.cbcAes 0 0 24 0 24 0) ∧ ¬Instr.lengthAccepted (.cbcAes 0 0 24 0 24 0)) ∧
    (Instr.keyAccepted (.cbcTdea 0 0 12 0 24 0) ∧ ¬Instr.lengthAccepted (.cbcTdea 0 0 12 0 24 0)) := by
  simp [Instr.keyAccepted, Instr.lengthAccepted]

/-- DST + 16 = 257 for cbc.aes, DST + 32 = 257 for cmac.sk, an empty operand at 257 for xor. -/
theorem witness_OutOfRangeOperandFailsWithCodeFive :
    (Instr.keyAccepted (.cbcAes 0xF1 0 16 0 16 0) ∧ Instr.lengthAccepted (.cbcAes 0xF1 0 16 0 16 0) ∧
      Instr.outOfRange (.cbcAes 0xF1 0 16 0 16 0)) ∧
    (Instr.keyAccepted (.cmacSk 0xE1 0 16) ∧ Instr.lengthAccepted (.cmacSk 0xE1 0 16) ∧
      Instr.outOfRange (.cmacSk 0xE1 0 16)) ∧
    (Instr.keyAccepted (.xor 0 257 0 0) ∧ Instr.lengthAccepted (.xor 0 257 0 0) ∧
      Instr.outOfRange (.xor 0 257 0 0)) := by
  simp [Instr.keyAccepted, Instr.lengthAccepted, Instr.outOfRange, Instr.operandRow]

/-- One pending state for each of the codes 0 to 5. -/
theorem witness_CompletionReportsTheFirstFailingCheck :
    firstFailingCode revPending = 0#4 ∧
    firstFailingCode (pendingWords [0x00000015#32] State.reset) = 1#4 ∧
    firstFailingCode (pendingWords [0x00000701#32] State.reset) = 2#4 ∧
    firstFailingCode (pendingWords [0x00000001#32, 0#32, 0#32, 0#32, 15#32, 0#32, 1#32] State.reset) = 3#4 ∧
    firstFailingCode (pendingWords [0x00000001#32, 0x1F8#32, 0#32, 0#32, 15#32, 0#32, 16#32] State.reset) = 4#4 ∧
    firstFailingCode (pendingWords [0x00000014#32, 0x100#32, 0#32, 0#32, 1#32] State.reset) = 5#4 := by decide

theorem witness_FailedCommandWritesNothing :
    complete State.reset.start = .next (State.reset.start.commandFailed .illegalOp) ∧
      State.reset.start.status.err = false ∧
      (State.reset.start.commandFailed .illegalOp).status.err = true := ⟨rfl, rfl, rfl⟩

theorem witness_CompletionLeavesTheHostsRegisters :
    complete State.reset.start = .next (State.reset.start.commandFailed .illegalOp) := rfl

/-- S1: C goes from 0 to 1. -/
theorem witness_OnlyShl1AndResetsChangeTheCarry :
    ∃ t, exec (.shl1 4 0 1) (loaded [(0, hex 1 0x80)]) = .next t ∧
      t.status.c ≠ (loaded [(0, hex 1 0x80)]).status.c := ⟨_, rfl, by decide⟩

/-- A pending shl1 changes C; with C = 1, a soft reset and both edges of `rst_n` do. -/
theorem witness_OnlyShl1AndResetsChangeTheCarry_steps :
    (∃ t, step (pendingWords [0x00000011#32, 0#32, 0#32, 4#32, 1#32] (loaded [(0, hex 1 0x80)])) = .next t ∧
      t.status.c = true) ∧
    let s : State := { State.reset with status := { Status.reset with c := true } }
    (∃ t, step { s with inputs := [wr 0x004#9 2] } = .next t ∧ t.status.c = false) ∧
    (∃ t, step { s with inputs := [.resetLow] } = .next t ∧ t.status.c = false) ∧
    (∃ t, step { s with inputs := [.resetHigh] } = .next t ∧ t.status.c = false) :=
  ⟨⟨_, rfl, by decide +kernel⟩, ⟨_, rfl, rfl⟩, ⟨_, rfl, rfl⟩, ⟨_, rfl, rfl⟩⟩

theorem witness_Shl1ArithmeticLaw : hex 2 0x8001 ≠ [] := by decide

theorem witness_XorLaws :
    (hex 4 0x0FF0AA55).length = (hex 4 0xFFFF0055).length ∧
      (hex 4 0xFFFF0055).length = (hex 4 1).length := by decide

theorem witness_RevTwiceRestoresTheBytes :
    revPending.wmem.wf = true ∧ 0xFD + 3 ≤ 256 ∧ 0 + 3 ≤ 256 ∧ 1 + 3 ≤ 256 := by decide

/-- The largest operand and modulus: 765, above WMEM. -/
theorem witness_PadLengthIsTheSmallestMultiple : 0 < 255 ∧ 511 ≤ 511 ∧ padLength 511 255 = 765 := by decide

theorem witness_CbcStreamContinuesFromItsLastBlock :
    (∀ x, (aesEnc (zeros 16) x).length = 16) ∧ (zeros 32).length = (1 + 1) * 16 := ⟨fun _ => rfl, rfl⟩

theorem witness_AesStateLayoutAndRoundOperations :
    (hex 16 0x000102030405060708090A0B0C0D0E0F).length = 16 ∧ 0 < 4 ∧ 3 < 4 := by decide

theorem witness_KeyScheduleRecurrence :
    ((zeros 16).length = 16 ∨ (zeros 16).length = 24) ∧ ((zeros 24).length = 16 ∨ (zeros 24).length = 24) := by
  decide

theorem witness_TdeaAppliesItsKeyPartsInOrder :
    (hex 8 0x0123456789ABCDEF).length = 8 ∧ (hex 8 0xFEDCBA9876543210).length = 8 ∧
      (hex 8 0x133457799BBCDFF1).length = 8 ∧ (zeros 8).length = 8 := by decide

/-- The key 0 and the key with all parity bits set. -/
theorem witness_KeyParityBitsAreIgnored :
    ∀ j, 1 ≤ j → j ≤ 64 → j % 8 ≠ 0 →
      (0#64).getMsbD (j - 1) = (0x0101010101010101#64).getMsbD (j - 1) := by
  have h : ∀ j < 65, 1 ≤ j → j % 8 ≠ 0 → (0#64).getMsbD (j - 1) = (0x0101010101010101#64).getMsbD (j - 1) := by
    decide
  exact fun j h1 h2 h3 => h j (by omega) h1 h3

theorem witness_OperandRegistersKeepNineBits :
    State.reset.idle ∧ 0x014#9 ∈ operandOffsets ∧ 0x02C#9 ∈ operandOffsets := by decide

theorem witness_CmdAndIeKeepTheirStoredBits : State.reset.idle := by decide

theorem witness_WmemWindowIsLittleEndianByLane :
    (loaded [(0xFF, hex 1 0xAA)]).idle ∧ (loaded [(0xFF, hex 1 0xAA)]).wmem.wf = true ∧ 0 < 64 ∧ 63 < 64 := by
  decide

theorem witness_MisalignedTransferChangesNothing :
    (0x001#9).toNat % 4 ≠ 0 ∧ (0x1FF#9).toNat % 4 ≠ 0 := by decide

/-- The soft reset, a CTRL write without it, a register and both ends of the WMEM window. -/
theorem witness_BusyAccessesAreRefused :
    revPending.status.busy = true ∧ (0x004#9).toNat % 4 = 0 ∧ (0x00000003#32).getLsbD 1 = true ∧
      ¬((0x004#9) = 0x004#9 ∧ (0x00000001#32).getLsbD 1 = true) ∧
      ((0x100#9).toNat % 4 = 0 ∧ 0x100 ≤ (0x100#9).toNat) ∧ ((0x1FC#9).toNat % 4 = 0 ∧ 0x100 ≤ (0x1FC#9).toNat) ∧
      ((0x030#9).toNat % 4 = 0 ∧ windowMap 0x030#9 = .register .rlen) := by decide

theorem witness_ReservedOffsetsReadZero :
    (∀ off ∈ [0x034#9, 0x0FC#9], 0x034 ≤ off.toNat ∧ off.toNat ≤ 0x0FC ∧ off.toNat % 4 = 0) ∧
      State.reset.status.busy = false ∧ revPending.status.busy = true := by decide

theorem witness_StatusWordAndItsWriteOneToClear :
    ({ State.reset with status := ⟨false, true, true, true, true, 5#4⟩ } : State).idle ∧
      (0x00000002#32).getLsbD 1 = true ∧ ((5 ≤ 5 ∧ 5 < 8) ∨ 12 ≤ 5) ∧ ((5 ≤ 12 ∧ 12 < 8) ∨ 12 ≤ 12) := by decide

theorem witness_StartSetsBusyAndClearsTheOutcome :
    (0x00000001#32).getLsbD 0 = true ∧ (0x00000001#32).getLsbD 1 = false ∧
      (0xFFFFFFFC#32).getLsbD 0 = false ∧ (0xFFFFFFFC#32).getLsbD 1 = false ∧
      State.reset.status.busy = false ∧ revPending.status.busy = true := by decide

theorem witness_SoftResetRestoresTheResetState :
    (0x00000002#32).getLsbD 1 = true ∧ (0x00000003#32).getLsbD 1 = true := by decide

/-- The block held in reset. -/
def heldInReset : State := { State.reset with rstN := false }

/-- A soft reset with and without START, `rst_n` driven low with a command pending, and its release. -/
theorem witness_ResetValuesAreReadAsStated :
    (0x00000002#32).getLsbD 1 = true ∧ (0xFFFFFFFF#32).getLsbD 1 = true ∧
    ({ revPending with inputs := [.resetLow] } : State).inputs = .resetLow :: [] ∧
    ({ heldInReset with inputs := [.resetHigh] } : State).rstN = false ∧
    ({ heldInReset with inputs := [.resetHigh] } : State).inputs = .resetHigh :: [] := by decide

theorem witness_PowerOnResetClearsTheBlock :
    ({ revPending with inputs := [.resetLow] } : State).inputs = .resetLow :: [] ∧
    ({ heldInReset with inputs := [.resetHigh] } : State).inputs = .resetHigh :: [] ∧
    (({ heldInReset with inputs := [.read 0#9] } : State).rstN = false ∧
      ({ heldInReset with inputs := [.read 0#9] } : State).inputs = .read 0#9 :: []) ∧
    (({ heldInReset with inputs := [.write 4#9 1#32] } : State).rstN = false ∧
      ({ heldInReset with inputs := [.write 4#9 1#32] } : State).inputs = .write 4#9 1#32 :: []) := by decide

theorem witness_RegisterReadsReturnTheirFields : State.reset.status.busy = false := by decide

theorem witness_NoOffsetAliasesAnother :
    (0x1FC#9).toNat % 4 = 0 ∧ windowMap 0x1FC#9 = windowMap 0x1FC#9 ∧ windowMap 0x1FC#9 ≠ .reserved := by decide

/-- A pending command over a non-empty WMEM meets the invariant, and so does the block held in reset; both step. -/
theorem witness_EveryStepKeepsTheInvariant :
    (Inv revPending ∧ ∃ t, step revPending = .next t) ∧ (Inv heldInReset ∧ ∃ t, step heldInReset = .next t) :=
  ⟨⟨⟨by decide, by decide, by decide, by decide, by decide, by decide, by decide⟩, _, rfl⟩,
    ⟨by decide, by decide, by decide, by decide, by decide, by decide, by decide⟩, _, rfl⟩

theorem witness_NoStepFaults :
    step { heldInReset with inputs := [.read 0#9] } = .refused .transferDuringReset := rfl

/-- START sets BUSY; the completion, the soft reset and both edges of `rst_n` clear it. -/
theorem witness_OnlyStartSetsBusy :
    (∃ t, step { State.reset with inputs := [wr 0x004#9 1] } = .next t ∧ State.reset.status.busy = false ∧
      t.status.busy = true) ∧
    (∃ t, step revPending = .next t ∧ revPending.status.busy = true ∧ t.status.busy = false) ∧
    (∃ t, step { revPending with inputs := [wr 0x004#9 2] } = .next t ∧ t.status.busy = false) ∧
    (∃ t, step { revPending with inputs := [.resetLow] } = .next t ∧ t.status.busy = false) ∧
    (∃ t, step { revPending with inputs := [.resetHigh] } = .next t ∧ t.status.busy = false) :=
  ⟨⟨_, rfl, rfl, rfl⟩, ⟨_, rfl, rfl, rfl⟩, ⟨_, rfl, rfl⟩, ⟨_, rfl, rfl⟩, ⟨_, rfl, rfl⟩⟩

/-- A dropped write and a dropped WMEM read set ACCERR; the misaligned write does not. -/
theorem witness_AccerrIsSetExactlyByRefusedAccesses :
    revPending.status.accerr = false ∧
    (∃ t, step { revPending with inputs := [wr 0x014#9 0] } = .next t ∧ t.status.accerr = true) ∧
    (∃ t, step { revPending with inputs := [rd 0x1FC#9] } = .next t ∧ t.status.accerr = true) ∧
    (∃ t, step { revPending with inputs := [wr 0x102#9 0] } = .next t ∧ t.status.accerr = false) :=
  ⟨rfl, ⟨_, rfl, rfl⟩, ⟨_, rfl, rfl⟩, ⟨_, rfl, rfl⟩⟩

/-- A window write, a completion, a soft reset and both edges of `rst_n` change WMEM. -/
theorem witness_OnlyTheseStepsChangeWmem :
    (∃ t, step { State.reset with inputs := [wr 0x1FC#9 1] } = .next t ∧ t.wmem ≠ State.reset.wmem) ∧
    (∃ t, step revPending = .next t ∧ t.wmem ≠ revPending.wmem) ∧
    (∃ t, step { revPending with inputs := [wr 0x004#9 2] } = .next t ∧ t.wmem ≠ revPending.wmem) ∧
    (∃ t, step { revPending with inputs := [.resetLow] } = .next t ∧ t.wmem ≠ revPending.wmem) ∧
    (∃ t, step { revPending with inputs := [.resetHigh] } = .next t ∧ t.wmem ≠ revPending.wmem) :=
  ⟨⟨_, rfl, by decide⟩, ⟨_, rfl, by decide⟩, ⟨_, rfl, by decide⟩, ⟨_, rfl, by decide⟩, ⟨_, rfl, by decide⟩⟩

theorem witness_ResultDoesNotDependOnInterleaving :
    revPending.pending ∧
      ∀ e ∈ [rd 0x008#9, rd 0x100#9, wr 0x014#9 0x10, wr 0x004#9 1, wr 0x102#9 0], e.quiet = true := by decide

theorem witness_EqualCommandsGiveEqualResults :
    let u : State := { revPending with ie := true, status := { revPending.status with c := true } }
    revPending.command = u.command ∧ revPending.wmem = u.wmem ∧ revPending.status.err = false ∧
      u.status.err = false ∧ revPending.status.errcode = 0#4 ∧ u.status.errcode = 0#4 ∧
      (∃ s', complete revPending = .next s') ∧ ∃ u', complete u = .next u' :=
  ⟨rfl, rfl, rfl, rfl, rfl, rfl, ⟨_, rfl⟩, ⟨_, rfl⟩⟩

theorem witness_CommandLineLeavesItsCommandPending :
    (Instr.pad 0x20 0x20 19 32).wellFormed = true ∧ (loaded [(0xFF, hex 1 0xAA)]).idle ∧
      (Instr.pad 0x20 0x20 19 256).wellFormed = false ∧
      ((Line.command (.pad 0x20 0x20 19 256), 0) : Line × Nat) ∈
        [(Line.poll, 1), (Line.command (.pad 0x20 0x20 19 256), 0)] := by decide

/-- 19 bytes from an unaligned address, ending at byte 255. -/
theorem witness_LdbStoresExactlyItsBytes :
    (loaded [(0xFF, hex 1 0xAA)]).idle ∧ (loaded [(0xFF, hex 1 0xAA)]).wmem.wf = true ∧
      0xED + (hex 19 0x11).length ≤ 256 := by decide

theorem witness_RdbKeepsExactlyItsBytes :
    0xED + 19 ≤ 256 ∧ 256 + 0 ≤ 256 ∧ (loaded [(0xFF, hex 1 0xAA)]).idle := by decide

theorem witness_PollEndsAndReportsTheOutcome : revPending.pending ∧ State.reset.idle := by decide

end Sys2Proof.Tests
end

section
/-! PROOFS. The family of 10_state.md: what a read and an idle write of a register do, and the values at reset. -/

namespace Sys2Proof.Machine

/-! ### Transfers to a register -/

/-- Only aligned offsets reach a register: every other offset is reserved or WMEM. -/
theorem not_misaligned_of_windowMap_register {off : Offset} {r : Register} (h : windowMap off = .register r) :
    misaligned off = false := by
  rw [misaligned_eq_false]
  by_contra hmis
  have hne : ∀ k : Offset, k.toNat % 4 = 0 → off ≠ k := by
    rintro k hk rfl
    exact hmis hk
  unfold windowMap at h
  repeat rw [if_neg (hne _ (by decide))] at h
  split at h <;> cases h

/-- A register read returns the register's word and has no effect, in idle and in BUSY (R68, R70). -/
theorem hostRead_register {off : Offset} {r : Register} (h : windowMap off = .register r) (s : State) :
    hostRead off s = { s with response := .read (registerWord s r) false } := by
  simp [hostRead_eq, busRead, not_misaligned_of_windowMap_register h, h]

/-- A register write while idle has the register's effect and no error (R67). -/
theorem hostWrite_register_idle {off : Offset} {r : Register} (h : windowMap off = .register r) {s : State}
    (hb : s.status.busy = false) (w : Word) :
    hostWrite off w s = { writeRegister s r w with response := .write false } := by
  rw [hostWrite_eq, busWrite_idle (not_misaligned_of_windowMap_register h) hb, h]
  rfl

/-- The answer of the last transfer reaches no register. -/
@[simp] theorem registerWord_with_response (s : State) (a : Response) (r : Register) :
    registerWord { s with response := a } r = registerWord s r := by
  cases r <;> rfl

/-! ### The operand registers -/

/-- Storing nine bits of a word and reading them back zero-extended masks the word (R30). -/
theorem setWidth_ptrOfWord (w : Word) : (ptrOfWord w).setWidth 32 = w &&& 0x000001FF#32 := by
  apply BitVec.eq_of_toNat_eq
  have hmask : w.toNat &&& 511 = w.toNat % 512 := Nat.and_two_pow_sub_one_eq_mod w.toNat 9
  have hsmall : w.toNat % 512 % 2 ^ 32 = w.toNat % 512 := by omega
  simpa [ptrOfWord, hmask] using hsmall

/-- The offsets of R64's operand registers reach operand registers. -/
theorem windowMap_of_mem_operandOffsets {off : Offset} (h : off ∈ operandOffsets) :
    ∃ r ∈ operandRegisters, windowMap off = .register r := by
  have hall : ∀ o ∈ operandOffsets, ∃ r ∈ operandRegisters, windowMap o = .register r := by
    simp [operandOffsets, operandRegisters]
  exact hall off h

/-- An operand register reads back, after a write, the written word without its bits 31:9. -/
theorem registerWord_writeRegister_operand {r : Register} (hr : r ∈ operandRegisters) (s : State) (w : Word) :
    registerWord (writeRegister s r w) r = w &&& 0x000001FF#32 := by
  rw [← setWidth_ptrOfWord]
  simp only [operandRegisters, List.mem_cons, List.not_mem_nil, or_false] at hr
  rcases hr with rfl | rfl | rfl | rfl | rfl | rfl | rfl <;> rfl

/-- Settles O36: the idle write of each operand register is its arm of `writeRegister`, and the read back is
that register's word. -/
theorem operandRegistersKeepNineBits : Obligations.OperandRegistersKeepNineBits := by
  intro s w ⟨_, hb⟩
  refine ⟨hostWrite_register_idle windowMap_srca hb w, hostWrite_register_idle windowMap_srcb hb w,
    hostWrite_register_idle windowMap_dst hb w, hostWrite_register_idle windowMap_len hb w,
    hostWrite_register_idle windowMap_keyp hb w, hostWrite_register_idle windowMap_keylen hb w,
    hostWrite_register_idle windowMap_ivp hb w, fun off hoff => ?_⟩
  obtain ⟨r, hr, hmap⟩ := windowMap_of_mem_operandOffsets hoff
  rw [hostRead_register hmap, hostWrite_register_idle hmap hb, registerWord_with_response,
    registerWord_writeRegister_operand hr]

/-! ### Reset -/

/-- The values R47 gives: every register reads 0 but ID, WMEM is 0x00, no command is pending and irq is 0. -/
def HasResetValues (t : State) : Prop :=
  (∀ r : Register, registerWord t r = if r = .id then 0x534B4431#32 else 0#32) ∧
    (∀ a : Nat, t.wmem.read a = 0x00#8) ∧ t.status.busy = false ∧ t.irq = false

theorem Status.toWord_reset : Status.reset.toWord = 0#32 := by decide

theorem CmdWord.toWord_zero : CmdWord.toWord ⟨0x00#8, 0#3, 0x00#8⟩ = 0#32 := by decide

/-- The reset state of the block has its reset values, whatever its environment's fields hold. -/
theorem hasResetValues_reset (level : Bool) (inputs : List Input) (a : Response) :
    HasResetValues { State.reset with rstN := level, inputs := inputs, response := a } := by
  refine ⟨fun r => ?_, Memory.read_nil, rfl, rfl⟩
  cases r with
  | status => exact Status.toWord_reset
  | cmd => exact CmdWord.toWord_zero
  | _ => rfl

/-- A CTRL write with SRST set resets the block, in idle and in BUSY (R261). -/
theorem hostWrite_softReset {w : Word} (h : w.getLsbD 1 = true) (s : State) :
    hostWrite 0x004#9 w s = { s.resetBlock with response := .write false } := by
  have hbus : busWrite 0x004#9 w s = (s.resetBlock, false) := by
    cases hb : s.status.busy with
    | true => simp [busWrite_busy (not_misaligned_of_windowMap_register windowMap_ctrl) hb, writeBusy, h]
    | false =>
      simp [busWrite_idle (not_misaligned_of_windowMap_register windowMap_ctrl) hb, writeTarget, writeRegister,
        ctrlWrite, h]
  rw [hostWrite_eq, hbus]

/-- Driving `rst_n` low is a step to the reset values (R260). -/
theorem step_resetLow {s : State} {rest : List Input} (h : s.inputs = .resetLow :: rest) :
    step s = .next (driveReset false { s with inputs := rest }) := step_cons h

/-- Releasing `rst_n` is a step to the reset values (R260). -/
theorem step_resetHigh {s : State} {rest : List Input} (h : s.inputs = .resetHigh :: rest) :
    step s = .next (driveReset true { s with inputs := rest }) := step_cons h

/-- Settles O45: reset, the soft reset and both edges of `rst_n` give the reset state of the block. -/
theorem resetValuesAreReadAsStated : Obligations.ResetValuesAreReadAsStated := by
  refine ⟨hasResetValues_reset _ _ _, fun s w hw => ?_, fun s rest h => ?_⟩
  · rw [hostWrite_softReset hw]
    exact hasResetValues_reset _ _ _
  · obtain hlow | ⟨_, hhigh⟩ := h
    · exact ⟨_, step_resetLow hlow, hasResetValues_reset _ _ _⟩
    · exact ⟨_, step_resetHigh hhigh, hasResetValues_reset _ _ _⟩

/-! ### The fields a read returns -/

/-- A flag in bit 0 reads as the number 1 or 0. -/
theorem flagAt_zero (b : Bool) : flagAt b 0 = if b then 1#32 else 0#32 := by
  cases b <;> rfl

/-- The word of CMD with its fields side by side, the unstored bits 0 (R41). -/
theorem CmdWord.toWord_eq_append (c : CmdWord) :
    c.toWord = 0#8 ++ c.imm ++ 0#5 ++ c.alg ++ c.op := by
  apply BitVec.eq_of_getLsbD_eq
  intro i hi
  simp only [CmdWord.toWord, BitVec.getLsbD_append, BitVec.getLsbD_or, BitVec.getLsbD_shiftLeft,
    BitVec.getLsbD_setWidth, BitVec.getLsbD_zero]
  grind

/-- Settles O47: each read is the register's word, and ID and RLEN take no write. -/
theorem registerReadsReturnTheirFields : Obligations.RegisterReadsReturnTheirFields := by
  intro s w
  have hie : hostRead 0x00C#9 s = { s with response := .read (if s.ie then 1#32 else 0#32) false } := by
    rw [hostRead_register windowMap_ie, ← flagAt_zero]
    rfl
  have hcmd : hostRead 0x010#9 s =
      { s with response := .read (0#8 ++ s.cmd.imm ++ 0#5 ++ s.cmd.alg ++ s.cmd.op) false } := by
    rw [hostRead_register windowMap_cmd, ← CmdWord.toWord_eq_append]
    rfl
  exact ⟨hostRead_register windowMap_id s, hostRead_register windowMap_ctrl s, hie, hcmd,
    hostRead_register windowMap_srca s, hostRead_register windowMap_srcb s, hostRead_register windowMap_dst s,
    hostRead_register windowMap_len s, hostRead_register windowMap_keyp s, hostRead_register windowMap_keylen s,
    hostRead_register windowMap_ivp s, hostRead_register windowMap_rlen s,
    fun hb => hostWrite_register_idle windowMap_id hb w, fun hb => hostWrite_register_idle windowMap_rlen hb w⟩

end Sys2Proof.Machine
end

section
/-! PROOFS. The family of 20_memory.md: the WMEM window, the reserved offsets, and what the host's transfers do while a
command is pending. -/

namespace Sys2Proof.Machine

/-! ### What an offset reaches -/

/-- The offset of each register (R64). -/
def Register.offset : Register → Offset
  | .id => 0x000#9
  | .ctrl => 0x004#9
  | .status => 0x008#9
  | .ie => 0x00C#9
  | .cmd => 0x010#9
  | .srca => 0x014#9
  | .srcb => 0x018#9
  | .dst => 0x01C#9
  | .len => 0x020#9
  | .keyp => 0x024#9
  | .keylen => 0x028#9
  | .ivp => 0x02C#9
  | .rlen => 0x030#9

/-- The window map sends each register's offset to it, and no other offset (R64). -/
theorem windowMap_eq_register_iff {off : Offset} {r : Register} :
    windowMap off = .register r ↔ off = r.offset := by
  constructor
  · unfold windowMap
    repeat
      refine iteInduction (motive := (· = Target.register r → off = r.offset))
        (fun hoff hr => by cases hr; exact hoff) fun _ => ?_
    exact iteInduction (motive := (· = Target.register r → off = r.offset)) nofun nofun
  · rintro rfl
    cases r <;> rfl

/-- The offsets 0x034 to 0x0FC, above the registers and below the WMEM window, are reserved (R65). -/
theorem windowMap_reserved {off : Offset} (hlo : 0x034 ≤ off.toNat) (hhi : off.toNat ≤ 0x0FC) :
    windowMap off = .reserved := by
  have hne : ∀ k : Offset, k.toNat < 0x034 → off ≠ k := by
    rintro k hk rfl
    omega
  unfold windowMap
  repeat rw [if_neg (hne _ (by decide))]
  rw [if_pos (by omega)]

/-- The offset of each WMEM word is aligned (R66). -/
theorem misaligned_wmemOffset (j : Nat) : misaligned (wmemOffset j) = false := by
  rw [misaligned_eq_false, wmemOffset, BitVec.toNat_ofNat]
  omega

/-- Every aligned offset from 0x100 on is the offset of a WMEM word (R66). -/
theorem exists_eq_wmemOffset {off : Offset} (ha : off.toNat % 4 = 0) (hw : 0x100 ≤ off.toNat) :
    ∃ j < 64, off = wmemOffset j := by
  have hlt : off.toNat < 512 := off.isLt
  refine ⟨(off.toNat - 0x100) / 4, by omega, BitVec.eq_of_toNat_eq ?_⟩
  rw [wmemOffset, BitVec.toNat_ofNat]
  omega

/-! ### The lanes of a bus word -/

/-- Lane `k` of a bus word is its bits 8k+7:8k (R66). -/
theorem laneBytes_getD (w : Word) {k : Nat} (h : k < 4) :
    (laneBytes w).getD k 0x00#8 = w.extractLsb' (8 * k) 8 := by
  interval_cases k <;> rfl

/-- A WMEM word with its lanes side by side, byte 4j lowest (R66). -/
theorem wmemLanes_eq_append (m : Memory) (j : Nat) :
    wmemLanes m j = m.read (4 * j + 3) ++ m.read (4 * j + 2) ++ m.read (4 * j + 1) ++ m.read (4 * j) := by
  apply BitVec.eq_of_getLsbD_eq
  intro i hi
  simp only [wmemLanes, BitVec.getLsbD_append, BitVec.getLsbD_or, BitVec.getLsbD_shiftLeft,
    BitVec.getLsbD_setWidth]
  grind

/-! ### Transfers to the WMEM window -/

/-- A write through the WMEM window while idle stores its lanes and changes nothing else (R66, R67). -/
theorem hostWrite_wmem_idle {j : Nat} {s : State} (hj : j < 64) (hb : s.status.busy = false) (w : Word) :
    hostWrite (wmemOffset j) w s =
      { s with wmem := s.wmem.writeBytes (4 * j) (laneBytes w), response := .write false } := by
  have hw : windowMap (wmemOffset j) = .wmemWord j := windowMap_wmem hj
  rw [hostWrite_eq, busWrite_idle (misaligned_wmemOffset j) hb, hw]
  rfl

/-- A read through the WMEM window while a command is pending gives 0 and sets ACCERR (R70). -/
theorem hostRead_wmem_busy {j : Nat} {s : State} (hj : j < 64) (hb : s.status.busy = true) :
    hostRead (wmemOffset j) s = { s.accessRefused with response := .read 0#32 false } := by
  have hw : windowMap (wmemOffset j) = .wmemWord j := windowMap_wmem hj
  simp [hostRead_eq, busRead, misaligned_wmemOffset j, hw, hb]

/-- Settles O38: the written lanes are the four bytes stored from 4j up, and the read word is the four bytes side by
side. -/
theorem wmemWindowIsLittleEndianByLane : Obligations.WmemWindowIsLittleEndianByLane := by
  intro s j w ⟨_, hb⟩ hwf hj off t
  have ht : t = { s with wmem := s.wmem.writeBytes (4 * j) (laneBytes w), response := .write false } :=
    hostWrite_wmem_idle hj hb w
  have hin : 4 * j + (laneBytes w).length ≤ 256 := by
    rw [laneBytes_length]
    omega
  rw [ht]
  refine ⟨rfl, fun k hk => ?_, fun a ha => Memory.read_writeBytes_outside hin hwf ha, ?_⟩
  · rw [← laneBytes_getD w hk]
    exact Memory.read_writeBytes_inside hin hwf hk
  · rw [← wmemLanes_eq_append]
    exact hostRead_wmem_idle hj hb

/-! ### Transfers while a command is pending -/

/-- A write while a command is pending is refused with ACCERR, unless it is the soft reset (R70). -/
theorem hostWrite_busy_refused {off : Offset} {w : Word} {s : State} (ha : off.toNat % 4 = 0)
    (hb : s.status.busy = true) (h : ¬(off = 0x004#9 ∧ w.getLsbD 1 = true)) :
    hostWrite off w s = { s.accessRefused with response := .write false } := by
  have hctrl : ¬(windowMap off = .register .ctrl ∧ w.getLsbD 1 = true) := by
    rwa [windowMap_eq_register_iff]
  rw [hostWrite_eq, busWrite_busy (misaligned_eq_false.2 ha) hb, writeBusy, if_neg hctrl]

/-- Settles O40: the three refusals of R70, and reads that reach a register. -/
theorem busyAccessesAreRefused : Obligations.BusyAccessesAreRefused := by
  intro s off w ha
  refine ⟨fun hb => ⟨?softReset, hostWrite_busy_refused ha hb, ?wmemRead⟩,
    fun r hr => hostRead_register hr s, hostRead_register windowMap_ctrl s⟩
  case softReset =>
    rintro rfl hw
    exact hostWrite_softReset hw s
  case wmemRead =>
    intro hwmem
    obtain ⟨j, hj, rfl⟩ := exists_eq_wmemOffset ha hwmem
    exact hostRead_wmem_busy hj hb

/-! ### Transfers to a reserved offset -/

/-- A read of a reserved offset gives 0 and has no effect, in idle and in BUSY (R65, R70). -/
theorem hostRead_reserved {off : Offset} (ha : off.toNat % 4 = 0) (h : windowMap off = .reserved) (s : State) :
    hostRead off s = { s with response := .read 0#32 false } := by
  simp [hostRead_eq, busRead, misaligned_eq_false.2 ha, h]

/-- A write to a reserved offset while idle has no effect (R65). -/
theorem hostWrite_reserved_idle {off : Offset} (ha : off.toNat % 4 = 0) (h : windowMap off = .reserved)
    {s : State} (hb : s.status.busy = false) (w : Word) :
    hostWrite off w s = { s with response := .write false } := by
  rw [hostWrite_eq, busWrite_idle (misaligned_eq_false.2 ha) hb, h]
  rfl

/-- Settles O41: the range of R65 is reserved, and a reserved offset is not CTRL, so BUSY refuses each write. -/
theorem reservedOffsetsReadZero : Obligations.ReservedOffsetsReadZero := by
  intro s off w hlo hhi ha
  have hres : windowMap off = .reserved := windowMap_reserved hlo hhi
  have hctrl : off ≠ 0x004#9 := by
    rintro rfl
    simp at hlo
  exact ⟨hostRead_reserved ha hres s, fun hb => hostWrite_reserved_idle ha hres hb w,
    fun hb => hostWrite_busy_refused ha hb fun h => hctrl h.1⟩

end Sys2Proof.Machine
end

section
/-! PROOFS. The family of 60_exceptions.md: which check a completion fails at, and START. -/

namespace Sys2Proof.Machine

/-! ### Words that are no command -/

/-- The decoder calls an OP in no row of the opcode map illegal, whatever ALG is (R97, R221). -/
theorem decodeOpcode_illegalOp {op : BitVec 8} (alg : BitVec 3)
    (h : op ∉ [0x01#8, 0x02#8, 0x10#8, 0x11#8, 0x12#8, 0x13#8, 0x14#8]) :
    decodeOpcode op alg = .error .illegalOp := by
  simp only [List.mem_cons, List.not_mem_nil, or_false, not_or] at h
  simp [decodeOpcode, h]

/-- The decoder calls ALG bad for OP 0x01 from 2 on and for OP 0x02 from 1 on (R97, R222). -/
theorem decodeOpcode_badAlg {op : BitVec 8} {alg : BitVec 3}
    (h : (op = 0x01#8 ∧ 2 ≤ alg.toNat) ∨ (op = 0x02#8 ∧ 1 ≤ alg.toNat)) :
    decodeOpcode op alg = .error .badAlg := by
  obtain ⟨rfl, halg⟩ | ⟨rfl, halg⟩ := h
  · have hzero : alg ≠ 0#3 := by bv_omega
    have hone : alg ≠ 1#3 := by bv_omega
    simp [decodeOpcode, hzero, hone]
  · have hzero : alg ≠ 0#3 := by bv_omega
    simp [decodeOpcode, hzero]

/-- A failed command's state is the one R231 and R233 write out. -/
theorem commandFailed_eq_failedState (s : State) (e : CmdError) : s.commandFailed e = failedState s e.code := rfl

/-- A word whose OP and ALG name no command fails with the code of its error (R221, R222, R233). -/
theorem complete_of_decodeOpcode_error {s : State} {e : DecodeError}
    (h : decodeOpcode s.cmd.op s.cmd.alg = .error e) :
    complete s = .next (failedState s (decodeErrorKind e).code) := by
  have hd : decodeCommand s.command = .error e := by
    simp only [decodeCommand, State.command_cmd, h]
  rw [complete_of_decode_error hd, commandFailed_eq_failedState]

/-- Settles O6: the decoder calls such an OP illegal. -/
theorem unmappedOpFailsWithCodeOne : Obligations.UnmappedOpFailsWithCodeOne := fun _ hop =>
  complete_of_decodeOpcode_error (decodeOpcode_illegalOp _ hop)

/-- Settles O7: the decoder calls such an ALG bad. -/
theorem unsupportedAlgFailsWithCodeTwo : Obligations.UnsupportedAlgFailsWithCodeTwo := fun _ halg =>
  complete_of_decodeOpcode_error (decodeOpcode_badAlg halg)

/-! ### The checks of a command -/

/-- The checks of each command, in the order of R228. -/
def Instr.checks : Instr → List (Option CmdError)
  | .cbcAes dst srca len keyp keylen ivp =>
    [aesKeyError keylen, blockError 16 len, rangeError (cbcOperands 16 dst srca len keyp keylen ivp)]
  | .cbcTdea dst srca len keyp keylen ivp =>
    [tdeaKeyError keylen, blockError 8 len, rangeError (cbcOperands 8 dst srca len keyp keylen ivp)]
  | .cmacSk dst keyp keylen => [aesKeyError keylen, rangeError (cmacOperands dst keyp keylen)]
  | .xor dst srca srcb len => [rangeError (xorOperands dst srca srcb len)]
  | .shl1 dst srca len => [rangeError (unaryOperands dst srca len)]
  | .pad dst srca len m => [rangeError (padOperands dst srca len m)]
  | .rev dst srca len => [rangeError (unaryOperands dst srca len)]
  | .copy dst srca len => [rangeError (unaryOperands dst srca len)]

/-- The result is computed and fits WMEM at DST, so that MemWrite is defined (R9). -/
def ResultFits (dst : Nat) (result : Except Fault Result) : Prop :=
  ∃ r, result = .ok r ∧ dst + r.bytes.length ≤ 256

/-- The checks of a CBC command bound every operand it reads and the ciphertext it stores (R157, R226). -/
theorem resultFits_cbcCompute {key : Option CmdError} {enc : List Byte → List Byte → List Byte}
    {bs dst srca len keyp keylen ivp : Nat} (henc : ∀ k x, (enc k x).length = bs)
    (h : firstError [key, blockError bs len, rangeError (cbcOperands bs dst srca len keyp keylen ivp)] = none)
    (m : Memory) : ResultFits dst (cbcCompute enc bs srca len keyp keylen ivp m) := by
  simp only [firstError_eq_none, List.forall_mem_cons, blockError_eq_none, rangeError_eq_none,
    cbcOperands] at h
  obtain ⟨-, ⟨-, hblocks⟩, ⟨hsrc, hdst, hkey, hiv, -⟩, -⟩ := h
  refine ⟨_, cbcCompute_ok hkey hiv hsrc, ?_⟩
  rwa [cbcEncrypt_length (henc _), Nat.div_mul_cancel (Nat.dvd_of_mod_eq_zero hblocks)]

/-- The check of a command on the one source operand bounds it and a result of `n` bytes (R226). -/
theorem resultFits_unaryCompute {f : List Byte → Result} {dst srca len n : Nat}
    (hn : ∀ a, a.length = len → (f a).bytes.length = n)
    (h : firstError [rangeError [⟨srca, len⟩, ⟨dst, n⟩]] = none) (m : Memory) :
    ResultFits dst (unaryCompute f srca len m) := by
  simp only [firstError_eq_none, List.forall_mem_cons, rangeError_eq_none] at h
  obtain ⟨⟨hsrc, hdst, -⟩, -⟩ := h
  refine ⟨_, unaryCompute_ok hsrc, ?_⟩
  rwa [hn _ (Memory.bytes_length m srca len)]

/-- A command runs its checks, and once they pass its result fits WMEM (R226, R233). -/
theorem exec_eq_runCommand (i : Instr) (s : State) :
    ∃ dst compute, exec i s = runCommand (Instr.checks i) dst compute s ∧
      (firstError (Instr.checks i) = none → ResultFits dst (compute s.wmem)) := by
  cases i with
  | cbcAes dst srca len keyp keylen ivp =>
    exact ⟨_, _, rfl, fun hnone => resultFits_cbcCompute aesEnc_length hnone _⟩
  | cbcTdea dst srca len keyp keylen ivp =>
    exact ⟨_, _, rfl, fun hnone => resultFits_cbcCompute tdeaEnc_length hnone _⟩
  | cmacSk dst keyp keylen =>
    refine ⟨_, _, rfl, fun hnone => ?_⟩
    simp only [Instr.checks, firstError_eq_none, List.forall_mem_cons, rangeError_eq_none, cmacOperands] at hnone
    obtain ⟨-, ⟨hkey, hdst, -⟩, -⟩ := hnone
    exact ⟨_, cmacCompute_ok hkey, by rwa [cmacSubkeys_length]⟩
  | xor dst srca srcb len =>
    refine ⟨_, _, rfl, fun hnone => ?_⟩
    simp only [Instr.checks, firstError_eq_none, List.forall_mem_cons, rangeError_eq_none, xorOperands] at hnone
    obtain ⟨⟨hsrca, hsrcb, hdst, -⟩, -⟩ := hnone
    exact ⟨_, xorCompute_ok hsrca hsrcb, by simpa using hdst⟩
  | shl1 dst srca len =>
    exact ⟨_, _, rfl, fun hnone => resultFits_unaryCompute (by simp) hnone _⟩
  | pad dst srca len m =>
    exact ⟨_, _, rfl, fun hnone => resultFits_unaryCompute (fun a ha => by simp [ha]) hnone _⟩
  | rev dst srca len =>
    exact ⟨_, _, rfl, fun hnone => resultFits_unaryCompute (by simp) hnone _⟩
  | copy dst srca len =>
    exact ⟨_, _, rfl, fun hnone => resultFits_unaryCompute (by simp) hnone _⟩

/-- A command fails with the code of its first failing check (R228). -/
theorem exec_fails {i : Instr} {e : CmdError} (h : firstError (Instr.checks i) = some e) (s : State) :
    exec i s = .next (failedState s e.code) := by
  obtain ⟨dst, compute, hexec, -⟩ := exec_eq_runCommand i s
  rw [hexec, runCommand_fails h, commandFailed_eq_failedState]

/-- A command none of whose checks fails stores a result and succeeds (R233). -/
theorem exec_succeeds {i : Instr} (h : firstError (Instr.checks i) = none) (s : State) :
    ∃ dst r, dst + r.bytes.length ≤ 256 ∧
      exec i s = .next (s.commandSucceeded (s.wmem.writeBytes dst r.bytes) r) := by
  obtain ⟨dst, compute, hexec, hresult⟩ := exec_eq_runCommand i s
  obtain ⟨r, hr, hd⟩ := hresult h
  exact ⟨dst, r, hd, hexec.trans (runCommand_succeeds h hr hd)⟩

/-! ### KEY_FORMAT and BLOCK_ALIGN -/

/-- KEY_FORMAT is the first check of every command with a key (R228). -/
theorem firstError_checks_of_wrongKey {i : Instr} (h : ¬Instr.keyAccepted i) :
    firstError (Instr.checks i) = some .keyFormat := by
  cases i with
  | cbcAes dst srca len keyp keylen ivp =>
    have hkey : aesKeyError keylen = some .keyFormat := if_neg h
    rw [Instr.checks, hkey, firstError_some]
  | cbcTdea dst srca len keyp keylen ivp =>
    have hkey : tdeaKeyError keylen = some .keyFormat := if_neg h
    rw [Instr.checks, hkey, firstError_some]
  | cmacSk dst keyp keylen =>
    have hkey : aesKeyError keylen = some .keyFormat := if_neg h
    rw [Instr.checks, hkey, firstError_some]
  | _ => exact absurd trivial h

/-- BLOCK_ALIGN is the check of a CBC command after its key (R228). -/
theorem firstError_checks_of_unaligned {i : Instr} (hk : Instr.keyAccepted i) (hl : ¬Instr.lengthAccepted i) :
    firstError (Instr.checks i) = some .blockAlign := by
  cases i with
  | cbcAes dst srca len keyp keylen ivp =>
    have hblock : blockError 16 len = some .blockAlign := if_neg hl
    rw [Instr.checks, aesKeyError_eq_none.2 hk, hblock, firstError_none, firstError_some]
  | cbcTdea dst srca len keyp keylen ivp =>
    have hblock : blockError 8 len = some .blockAlign := if_neg hl
    rw [Instr.checks, tdeaKeyError_eq_none.2 hk, hblock, firstError_none, firstError_some]
  | _ => exact absurd trivial hl

/-- Settles O16: the key is the first check. -/
theorem wrongKeyLengthFailsWithCodeThree : Obligations.WrongKeyLengthFailsWithCodeThree := fun _ s hkey =>
  exec_fails (firstError_checks_of_wrongKey hkey) s

/-- Settles O17: with the key accepted, LEN is the first check that fails. -/
theorem unalignedLengthFailsWithCodeFour : Obligations.UnalignedLengthFailsWithCodeFour := fun _ s hkey hlen =>
  exec_fails (firstError_checks_of_unaligned hkey hlen) s

/-! ### The first failing check, read off the registers -/

/-- The code of the first failing check of a list, 0 if none fails (R39, R228). -/
def checksCode (cs : List (Option CmdError)) : BitVec 4 := (firstError cs).elim 0#4 CmdError.code

/-- No error has the code 0 (R220). -/
theorem CmdError.code_ne_zero (e : CmdError) : e.code ≠ 0#4 := by
  cases e <;> decide

theorem checksCode_of_none {cs : List (Option CmdError)} (h : firstError cs = none) : checksCode cs = 0#4 := by
  rw [checksCode, h, Option.elim_none]

theorem checksCode_of_some {cs : List (Option CmdError)} {e : CmdError} (h : firstError cs = some e) :
    checksCode cs = e.code := by
  rw [checksCode, h, Option.elim_some]

/-- A check that passes on `p` gives its code otherwise, before the checks that follow it. -/
theorem checksCode_ite (p : Prop) [Decidable p] (e : CmdError) (cs : List (Option CmdError)) :
    checksCode ((if p then none else some e) :: cs) = if p then checksCode cs else e.code := by
  split <;> rfl

theorem checksCode_aesKeyError (keylen : Nat) (cs : List (Option CmdError)) :
    checksCode (aesKeyError keylen :: cs) = if ¬(keylen = 24 ∨ keylen = 16) then 3#4 else checksCode cs := by
  rw [aesKeyError, checksCode_ite, ite_not, if_congr or_comm rfl rfl]
  rfl

theorem checksCode_tdeaKeyError (keylen : Nat) (cs : List (Option CmdError)) :
    checksCode (tdeaKeyError keylen :: cs) = if ¬keylen = 24 then 3#4 else checksCode cs := by
  rw [tdeaKeyError, checksCode_ite, ite_not]
  rfl

theorem checksCode_blockError (bs len : Nat) (cs : List (Option CmdError)) :
    checksCode (blockError bs len :: cs) = if len = 0 ∨ len % bs ≠ 0 then 4#4 else checksCode cs := by
  have hneg : (len ≠ 0 ∧ len % bs = 0) ↔ ¬(len = 0 ∨ len % bs ≠ 0) := by tauto
  rw [blockError, checksCode_ite, if_congr hneg rfl rfl, ite_not]
  rfl

theorem checksCode_rangeError (os : List Operand) :
    checksCode [rangeError os] = if os.any (fun o => 256 < o.ptr + o.len) then 5#4 else 0#4 := by
  have hneg : os.all Operand.inWmem = true ↔ ¬os.any (fun o => 256 < o.ptr + o.len) = true := by
    simp [Operand.inWmem_iff]
  rw [rangeError, checksCode_ite, if_congr hneg rfl rfl, ite_not]
  rfl

/-- The rows of the opcode map: what OP and ALG hold for each command (R95, R97). -/
def Opcode.hasFields : Opcode → BitVec 8 → BitVec 3 → Prop
  | .cbcAes, op, alg => op = 0x01#8 ∧ alg = 0#3
  | .cbcTdea, op, alg => op = 0x01#8 ∧ alg = 1#3
  | .cmacSk, op, alg => op = 0x02#8 ∧ alg = 0#3
  | .xor, op, _ => op = 0x10#8
  | .shl1, op, _ => op = 0x11#8
  | .pad, op, _ => op = 0x12#8
  | .rev, op, _ => op = 0x13#8
  | .copy, op, _ => op = 0x14#8

/-- The decoder names the command whose row the fields are (R97). -/
theorem decodeOpcode_of_hasFields {op : BitVec 8} {alg : BitVec 3} {o : Opcode} (h : Opcode.hasFields o op alg) :
    decodeOpcode op alg = .ok o := by
  cases o with
  | cbcAes | cbcTdea | cmacSk =>
    obtain ⟨rfl, rfl⟩ := h
    rfl
  | xor | shl1 | pad | rev | copy =>
    cases h
    rfl

/-- Every OP and ALG are an OP outside the map, a bad ALG, or the fields of a row of the map (R97, R98). -/
theorem fields_cases (op : BitVec 8) (alg : BitVec 3) :
    op ∉ [0x01#8, 0x02#8, 0x10#8, 0x11#8, 0x12#8, 0x13#8, 0x14#8] ∨
    ((op = 0x01#8 ∧ 2 ≤ alg.toNat) ∨ (op = 0x02#8 ∧ 1 ≤ alg.toNat)) ∨
    ∃ o, Opcode.hasFields o op alg := by
  by_cases hop : op ∈ [0x01#8, 0x02#8, 0x10#8, 0x11#8, 0x12#8, 0x13#8, 0x14#8]
  · refine .inr ?_
    simp only [List.mem_cons, List.not_mem_nil, or_false] at hop
    obtain rfl | rfl | rfl | rfl | rfl | rfl | rfl := hop
    · obtain halg | halg | halg : 2 ≤ alg.toNat ∨ alg = 0#3 ∨ alg = 1#3 := by bv_omega
      · exact .inl (.inl ⟨rfl, halg⟩)
      · exact .inr ⟨.cbcAes, rfl, halg⟩
      · exact .inr ⟨.cbcTdea, rfl, halg⟩
    · obtain halg | halg : 1 ≤ alg.toNat ∨ alg = 0#3 := by bv_omega
      · exact .inl (.inr ⟨rfl, halg⟩)
      · exact .inr ⟨.cmacSk, rfl, halg⟩
    · exact .inr ⟨.xor, rfl⟩
    · exact .inr ⟨.shl1, rfl⟩
    · exact .inr ⟨.pad, rfl⟩
    · exact .inr ⟨.rev, rfl⟩
    · exact .inr ⟨.copy, rfl⟩
  · exact .inl hop

/-- An OP outside the map is the first failing check (R221, R228). -/
theorem firstFailingCode_of_illegalOp {s : State}
    (h : s.cmd.op ∉ [0x01#8, 0x02#8, 0x10#8, 0x11#8, 0x12#8, 0x13#8, 0x14#8]) : firstFailingCode s = 1#4 := by
  simp only [List.mem_cons, List.not_mem_nil, or_false] at h
  refine if_pos fun hop => h ?_
  bv_omega

/-- For an OP of the map, a bad ALG is the first failing check (R222, R228). -/
theorem firstFailingCode_of_badAlg {s : State}
    (h : (s.cmd.op = 0x01#8 ∧ 2 ≤ s.cmd.alg.toNat) ∨ (s.cmd.op = 0x02#8 ∧ 1 ≤ s.cmd.alg.toNat)) :
    firstFailingCode s = 2#4 := by
  rcases h with ⟨hop, halg⟩ | ⟨hop, halg⟩ <;> simp [firstFailingCode, hop, halg]

/-- For a command of the map, the registers give the code of the command's own checks: the operands the decoder
takes from them are those the checks of R223 to R226 name. -/
theorem firstFailingCode_of_hasFields {s : State} {o : Opcode} (h : Opcode.hasFields o s.cmd.op s.cmd.alg) :
    firstFailingCode s = checksCode (Instr.checks (o.withOperands s.command)) := by
  cases o with
  | cbcAes =>
    obtain ⟨hop, halg⟩ := h
    simp [firstFailingCode, hop, halg, Opcode.withOperands, Instr.checks, checksCode_aesKeyError,
      checksCode_blockError, checksCode_rangeError, cbcOperands]
  | cbcTdea =>
    obtain ⟨hop, halg⟩ := h
    simp [firstFailingCode, hop, halg, Opcode.withOperands, Instr.checks, checksCode_tdeaKeyError,
      checksCode_blockError, checksCode_rangeError, cbcOperands]
  | cmacSk =>
    obtain ⟨hop, halg⟩ := h
    simp [firstFailingCode, hop, halg, Opcode.withOperands, Instr.checks, checksCode_aesKeyError,
      checksCode_rangeError, cmacOperands, Config.cmacOutBytes]
  | xor =>
    have hop : s.cmd.op = 0x10#8 := h
    simp [firstFailingCode, hop, Opcode.withOperands, Instr.checks, checksCode_rangeError, xorOperands]
  | shl1 =>
    have hop : s.cmd.op = 0x11#8 := h
    simp [firstFailingCode, hop, Opcode.withOperands, Instr.checks, checksCode_rangeError, unaryOperands]
  | pad =>
    have hop : s.cmd.op = 0x12#8 := h
    simp [firstFailingCode, hop, Opcode.withOperands, Instr.checks, checksCode_rangeError, padOperands]
  | rev =>
    have hop : s.cmd.op = 0x13#8 := h
    simp [firstFailingCode, hop, Opcode.withOperands, Instr.checks, checksCode_rangeError, unaryOperands]
  | copy =>
    have hop : s.cmd.op = 0x14#8 := h
    simp [firstFailingCode, hop, Opcode.withOperands, Instr.checks, checksCode_rangeError, unaryOperands]

/-- What O19 asks of one state: the completion reports `code`, or succeeds if `code` is 0. -/
def ReportsCode (s : State) (code : BitVec 4) : Prop :=
  (code ≠ 0#4 → complete s = .next (failedState s code)) ∧
  (code = 0#4 → ∃ t, complete s = .next t ∧
    t.status = { s.status with busy := false, done := true, c := t.status.c } ∧ t.rlen.toNat ≤ 256)

theorem ReportsCode.of_fails {s : State} {code : BitVec 4} (hne : code ≠ 0#4)
    (h : complete s = .next (failedState s code)) : ReportsCode s code :=
  ⟨fun _ => h, fun hzero => absurd hzero hne⟩

/-- The completion of a decoded command reports the code of the command's checks. -/
theorem reportsCode_of_decode {s : State} {i : Instr} (hd : decodeCommand s.command = .ok i) :
    ReportsCode s (checksCode (Instr.checks i)) := by
  cases hfirst : firstError (Instr.checks i) with
  | some e =>
    rw [checksCode_of_some hfirst]
    exact .of_fails e.code_ne_zero ((complete_of_decode hd).trans (exec_fails hfirst s))
  | none =>
    obtain ⟨dst, r, hfits, hexec⟩ := exec_succeeds hfirst s
    refine ⟨fun hne => absurd (checksCode_of_none hfirst) hne, fun _ =>
      ⟨_, (complete_of_decode hd).trans hexec, rfl, ?_⟩⟩
    rw [State.commandSucceeded_rlen, BitVec.toNat_ofNat]
    omega

/-- Settles O19: the registers and the completion give the same code for an OP outside the map, for a bad ALG, and
for each command. -/
theorem completionReportsTheFirstFailingCheck : Obligations.CompletionReportsTheFirstFailingCheck := by
  intro s
  change ReportsCode s (firstFailingCode s)
  obtain hop | halg | ⟨o, ho⟩ := fields_cases s.cmd.op s.cmd.alg
  · rw [firstFailingCode_of_illegalOp hop]
    exact .of_fails (by decide) (unmappedOpFailsWithCodeOne s hop)
  · rw [firstFailingCode_of_badAlg halg]
    exact .of_fails (by decide) (unsupportedAlgFailsWithCodeTwo s halg)
  · rw [firstFailingCode_of_hasFields ho]
    refine reportsCode_of_decode ?_
    simp only [decodeCommand, State.command_cmd, decodeOpcode_of_hasFields ho]

/-! ### START -/

/-- A CTRL write without SRST is START where bit 0 is set, and nothing otherwise (R32, R230). -/
theorem ctrlWrite_of_not_srst {w : Word} (h : w.getLsbD 1 = false) (s : State) :
    ctrlWrite s w = if w.getLsbD 0 then s.start else s :=
  if_neg (ne_true_of_eq_false h)

/-- Settles O43: while idle a CTRL write without SRST is START or nothing, while BUSY it is refused. -/
theorem startSetsBusyAndClearsTheOutcome : Obligations.StartSetsBusyAndClearsTheOutcome := by
  intro s w hsrst
  have hidle (hb : s.status.busy = false) :
      hostWrite 0x004#9 w s = { (if w.getLsbD 0 then s.start else s) with response := .write false } := by
    rw [hostWrite_register_idle windowMap_ctrl hb, writeRegister, ctrlWrite_of_not_srst hsrst]
  refine ⟨fun hstart hb => ?start, fun _ hb => ?refused, fun hstart hb => ?nothing⟩
  case start =>
    rw [hidle hb, if_pos hstart]
    exact ⟨rfl, Bool.and_false _⟩
  case refused => exact hostWrite_busy_refused rfl hb fun h => ne_true_of_eq_false hsrst h.2
  case nothing => rw [hidle hb, if_neg (ne_true_of_eq_false hstart)]

end Sys2Proof.Machine
end

section
/-! PROOFS. The family of 70_reset_and_hazards.md: the soft reset. -/

namespace Sys2Proof.Machine

/-- A reset keeps only the level of `rst_n`, the inputs to come and the last answer (R47, R261), and the answer of
the transfer that made it replaces the last one. -/
theorem State.resetBlock_with_response (s : State) (a : Response) :
    { s.resetBlock with response := a } =
      { State.reset with rstN := s.rstN, inputs := s.inputs, response := a } := rfl

/-- Settles O44: `hostWrite_softReset` covers idle and BUSY, and what it leaves is the reset state field by field. -/
theorem softResetRestoresTheResetState : Obligations.SoftResetRestoresTheResetState := by
  intro s w hsrst
  calc hostWrite 0x004#9 w s
      = { s.resetBlock with response := .write false } := hostWrite_softReset hsrst s
    _ = { State.reset with rstN := s.rstN, inputs := s.inputs, response := .write false } :=
        s.resetBlock_with_response _

end Sys2Proof.Machine
end

section
/-! PROOFS. The family of 30_encoding.md: the decoder and the encoder. -/

namespace Sys2Proof

open Machine

/-! ### Fields of a word -/

theorem fitsRegister_iff {v : Nat} : fitsRegister v = true ↔ v < 512 := decide_eq_true_iff

theorem fitsImm_iff {v : Nat} : fitsImm v = true ↔ v < 256 := decide_eq_true_iff

/-- An operand register keeps a value that fits it (R21, R103). -/
theorem toNat_ptrOfWord_ofNat {v : Nat} (h : fitsRegister v = true) :
    (ptrOfWord (BitVec.ofNat 32 v)).toNat = v := by
  rw [fitsRegister_iff] at h
  rw [ptrOfWord, BitVec.extractLsb'_toNat, BitVec.toNat_ofNat]
  omega

/-- The command word of pad holds OP, ALG 0 and M in its fields (R91, R95). -/
theorem ofWord_cmdWord_pad (dst srca len m : Nat) :
    CmdWord.ofWord (Instr.pad dst srca len m).cmdWord = ⟨0x12#8, 0#3, BitVec.ofNat 8 m⟩ := by
  have hlow (off n : Nat) (h : off + n ≤ 16) : (BitVec.ofNat 32 m <<< 16).extractLsb' off n = 0#n := by
    ext i hi
    simp [show off + i < 16 by omega]
  have himm : (BitVec.ofNat 32 m <<< 16).extractLsb' 16 8 = BitVec.ofNat 8 m := by
    ext i hi
    simp [← BitVec.getLsbD_eq_getElem, BitVec.getLsbD_ofNat, hi, show i < 32 by omega, show 16 + i < 32 by omega]
  simp only [CmdWord.ofWord, opField, algField, immField, Instr.cmdWord, BitVec.extractLsb'_or, himm,
    hlow 0 8 (by decide), hlow 8 3 (by decide)]
  simp

theorem toNat_imm_cmdWord_pad {m : Nat} (h : fitsImm m = true) (dst srca len : Nat) :
    (CmdWord.ofWord (Instr.pad dst srca len m).cmdWord).imm.toNat = m := by
  rw [ofWord_cmdWord_pad, BitVec.toNat_ofNat]
  exact Nat.mod_eq_of_lt (fitsImm_iff.1 h)

/-! ### The decoder, by the rows of the opcode map -/

/-- A word of a row of the opcode map decodes to the row's command with the operands of the registers (R97). -/
theorem decodeCommand_of_hasFields {c : Command} {o : Opcode} (h : Opcode.hasFields o c.cmd.op c.cmd.alg) :
    decodeCommand c = .ok (o.withOperands c) := by
  simp only [decodeCommand, decodeOpcode_of_hasFields h]

/-- What the decoder accepts is a row of the opcode map with the operands of the registers (R97). -/
theorem exists_hasFields_of_decodeCommand {c : Command} {i : Instr} (h : decodeCommand c = .ok i) :
    ∃ o, Opcode.hasFields o c.cmd.op c.cmd.alg ∧ i = o.withOperands c := by
  obtain hbad | hbad | ⟨o, ho⟩ := fields_cases c.cmd.op c.cmd.alg
  · simp [decodeCommand, decodeOpcode_illegalOp _ hbad] at h
  · simp [decodeCommand, decodeOpcode_badAlg hbad] at h
  · rw [decodeCommand_of_hasFields ho] at h
    exact ⟨o, ho, (Except.ok.inj h).symm⟩

/-- Operands read from registers fit them (R93, R101). -/
theorem wellFormed_withOperands (o : Opcode) (c : Command) : (o.withOperands c).wellFormed = true := by
  have hreg (p : Ptr) : fitsRegister p.toNat = true := fitsRegister_iff.2 p.isLt
  have himm : fitsImm c.cmd.imm.toNat = true := fitsImm_iff.2 c.cmd.imm.isLt
  cases o <;> simp only [Opcode.withOperands, Instr.wellFormed, hreg, himm, Bool.and_self]

/-! ### Encoding and decoding -/

/-- The command of an instruction, without its operands (R97). -/
def Instr.opcode : Instr → Opcode
  | .cbcAes .. => .cbcAes
  | .cbcTdea .. => .cbcTdea
  | .cmacSk .. => .cmacSk
  | .xor .. => .xor
  | .shl1 .. => .shl1
  | .pad .. => .pad
  | .rev .. => .rev
  | .copy .. => .copy

/-- The command word of an instruction holds the fields of its row of the opcode map (R95, R104). -/
theorem hasFields_ofWord_cmdWord (i : Instr) :
    Opcode.hasFields i.opcode (CmdWord.ofWord i.cmdWord).op (CmdWord.ofWord i.cmdWord).alg := by
  cases i with
  | pad dst srca len m => exact congrArg CmdWord.op (ofWord_cmdWord_pad dst srca len m)
  | _ => simp [Opcode.hasFields, Instr.opcode, CmdWord.ofWord, opField, algField, Instr.cmdWord]

/-- The registers that hold the words of an instruction hold its operands (R103, R104). -/
theorem withOperands_ofWords_encode {i : Instr} (h : i.wellFormed = true) :
    i.opcode.withOperands (Command.ofWords (encode i)) = i := by
  cases i
  all_goals
    simp only [Instr.wellFormed, Bool.and_eq_true] at h
    simp [Instr.opcode, Opcode.withOperands, Command.ofWords, encode, toNat_ptrOfWord_ofNat, toNat_imm_cmdWord_pad, h]

/-- Settles O1: the encoded fields are the instruction's row of the opcode map, and each register gives back the
value written to it. -/
theorem decodeOfEncodeIsTheInstruction : Obligations.DecodeOfEncodeIsTheInstruction := by
  intro i hwf
  calc decode (encode i)
      = .ok (i.opcode.withOperands (Command.ofWords (encode i))) :=
        decodeCommand_of_hasFields (hasFields_ofWord_cmdWord i)
    _ = .ok i := by rw [withOperands_ofWords_encode hwf]

/-- Settles O2: a decoded instruction takes its operands from the registers. -/
theorem decodedInstructionIsWellFormed : Obligations.DecodedInstructionIsWellFormed := by
  intro ws i h
  obtain ⟨o, -, rfl⟩ := exists_hasFields_of_decodeCommand h
  exact wellFormed_withOperands o _

/-- ALG is read for OP 0x01 and OP 0x02 only (R92). -/
theorem decodeOpcode_alg_ignored {op : BitVec 8} {alg alg' : BitVec 3}
    (h : op = 0x01#8 ∨ op = 0x02#8 → alg = alg') : decodeOpcode op alg = decodeOpcode op alg' := by
  by_cases hop : op = 0x01#8 ∨ op = 0x02#8
  · rw [h hop]
  · simp only [not_or] at hop
    simp [decodeOpcode, hop]

/-- Settles O3: OP and ALG name the same error or the same command, and the command's operands are the fields
that agree. -/
theorem ignoredFieldsDoNotMatter : Obligations.IgnoredFieldsDoNotMatter := by
  intro c d hop halg himm hdst hsrca hsrcb hkey hivp
  have hdecode : decodeOpcode d.cmd.op d.cmd.alg = decodeOpcode c.cmd.op c.cmd.alg := by
    rw [← hop]
    exact (decodeOpcode_alg_ignored halg).symm
  obtain hbad | hbad | ⟨o, ho⟩ := fields_cases c.cmd.op c.cmd.alg
  · simp only [decodeCommand, hdecode, decodeOpcode_illegalOp _ hbad]
  · simp only [decodeCommand, hdecode, decodeOpcode_badAlg hbad]
  · simp only [decodeCommand, hdecode, decodeOpcode_of_hasFields ho]
    cases o with
    | cbcAes | cbcTdea =>
      obtain ⟨hop1, -⟩ := ho
      simp only [Opcode.withOperands, hdst, hsrca (by simp [hop1]), hkey (.inl hop1), hivp hop1]
    | cmacSk =>
      obtain ⟨hop2, -⟩ := ho
      simp only [Opcode.withOperands, hdst, hkey (.inr hop2)]
    | xor =>
      have hop16 : c.cmd.op = 0x10#8 := ho
      simp only [Opcode.withOperands, hdst, hsrca (by simp [hop16]), hsrcb hop16]
    | pad =>
      have hop18 : c.cmd.op = 0x12#8 := ho
      simp only [Opcode.withOperands, hdst, hsrca (by simp [hop18]), himm hop18]
    | shl1 | rev | copy =>
      have hunary : c.cmd.op ≠ 0x02#8 := by rw [show c.cmd.op = _ from ho]; decide
      simp only [Opcode.withOperands, hdst, hsrca hunary]

/-- Settles O4: each list of words is evaluated by the decoder. -/
theorem wordsDecodeToTheirCommands : Obligations.WordsDecodeToTheirCommands := by
  unfold Obligations.WordsDecodeToTheirCommands
  decide

end Sys2Proof
end

section
/-! PROOFS. The whole machine: what one step can do, and what every step keeps. -/

namespace Sys2Proof.Machine

/-! ### What a completion does -/

/-- What a command's completion comes to: an error, or a result to be stored at DST (R233). -/
inductive Completion where
  | fails (e : CmdError)
  | stores (dst : Nat) (r : Result)

/-- The state after a completion. -/
def Completion.apply : Completion → State → State
  | .fails e, s => s.commandFailed e
  | .stores dst r, s => s.commandSucceeded (s.wmem.writeBytes dst r.bytes) r

/-- A result lies inside WMEM (R226). -/
def Completion.Fits : Completion → Prop
  | .fails _ => True
  | .stores dst r => dst + r.bytes.length ≤ 256

/-- The checks, the destination and the computation of a command are the instruction's alone. -/
theorem exists_exec_eq_runCommand (i : Instr) :
    ∃ dst compute, ∀ s, exec i s = runCommand (Instr.checks i) dst compute s := by
  cases i <;> exact ⟨_, _, fun _ => rfl⟩

/-- What a command comes to depends on the instruction and WMEM only (R235), and it never faults (R226). -/
theorem exists_completion_of_exec (i : Instr) (m : Memory) :
    ∃ k : Completion, k.Fits ∧ ∀ s : State, s.wmem = m → exec i s = .next (k.apply s) := by
  obtain ⟨dst, compute, hrun⟩ := exists_exec_eq_runCommand i
  cases hfirst : firstError (Instr.checks i) with
  | some e => exact ⟨.fails e, trivial, fun s _ => (hrun s).trans (runCommand_fails hfirst)⟩
  | none =>
    obtain ⟨_, _, -, hexec⟩ := exec_succeeds hfirst { State.reset with wmem := m }
    rw [hrun] at hexec
    obtain ⟨e, he, -⟩ | ⟨-, r, hr, hd, -⟩ := runCommand_cases hexec
    · rw [hfirst] at he
      cases he
    · refine ⟨.stores dst r, hd, fun s hs => (hrun s).trans ?_⟩
      exact runCommand_succeeds hfirst (hs ▸ hr) hd

/-- What a completion comes to depends on the stored command and WMEM only (R235), and it never faults. -/
theorem exists_completion (c : Command) (m : Memory) :
    ∃ k : Completion, k.Fits ∧
      ∀ s : State, s.command = c → s.wmem = m → complete s = .next (k.apply s) := by
  cases hd : decodeCommand c with
  | error e => exact ⟨.fails _, trivial, fun s hc _ => complete_of_decode_error (hc ▸ hd)⟩
  | ok i =>
    obtain ⟨k, hk, hexec⟩ := exists_completion_of_exec i m
    exact ⟨k, hk, fun s hc hm => (complete_of_decode (hc ▸ hd)).trans (hexec s hm)⟩

/-- The completion of the command a state holds. -/
theorem exists_complete_eq (s : State) :
    ∃ k : Completion, k.Fits ∧ complete s = .next (k.apply s) := by
  obtain ⟨k, hk, hcomplete⟩ := exists_completion s.command s.wmem
  exact ⟨k, hk, hcomplete s rfl rfl⟩

/-- A completion that gives a next state gives the one of its error or its result. -/
theorem exists_apply_of_complete {s t : State} (h : complete s = .next t) :
    ∃ k : Completion, k.Fits ∧ t = k.apply s := by
  obtain ⟨k, hk, hcomplete⟩ := exists_complete_eq s
  exact ⟨k, hk, Host.Outcome.next.inj (h.symm.trans hcomplete)⟩

section
variable (k : Completion) (s : State)

@[simp] theorem Completion.apply_command : (k.apply s).command = s.command := by cases k <;> rfl
@[simp] theorem Completion.apply_ie : (k.apply s).ie = s.ie := by cases k <;> rfl
@[simp] theorem Completion.apply_rstN : (k.apply s).rstN = s.rstN := by cases k <;> rfl
@[simp] theorem Completion.apply_inputs : (k.apply s).inputs = s.inputs := by cases k <;> rfl
@[simp] theorem Completion.apply_response : (k.apply s).response = s.response := by cases k <;> rfl
@[simp] theorem Completion.apply_accerr : (k.apply s).status.accerr = s.status.accerr := by cases k <;> rfl
@[simp] theorem Completion.apply_busy : (k.apply s).status.busy = false := by cases k <;> rfl
@[simp] theorem Completion.apply_done : (k.apply s).status.done = true := by cases k <;> rfl

end

/-- Settles O21: each clause is a field of `Completion.apply`. -/
theorem completionLeavesTheHostsRegisters : Obligations.CompletionLeavesTheHostsRegisters := by
  intro s t h
  obtain ⟨k, -, rfl⟩ := exists_apply_of_complete h
  simp [State.irq]

/-- Settles O20: with ERR 0 before, only an error sets it, and an error writes nothing. -/
theorem failedCommandWritesNothing : Obligations.FailedCommandWritesNothing := by
  intro s t h hbefore hafter
  obtain ⟨k, -, rfl⟩ := exists_apply_of_complete h
  cases k with
  | fails e => exact ⟨rfl, rfl, rfl⟩
  | stores dst r => exact absurd hafter (ne_true_of_eq_false hbefore)

/-- Settles O56: equal commands over equal WMEM come to the same error or result. -/
theorem equalCommandsGiveEqualResults : Obligations.EqualCommandsGiveEqualResults := by
  intro s u s' u' hcommand hwmem hserr huerr hscode hucode hs hu
  obtain ⟨k, -, hcomplete⟩ := exists_completion s.command s.wmem
  obtain rfl : k.apply s = s' := Host.Outcome.next.inj ((hcomplete s rfl rfl).symm.trans hs)
  obtain rfl : k.apply u = u' := Host.Outcome.next.inj ((hcomplete u hcommand.symm hwmem.symm).symm.trans hu)
  cases k with
  | fails e => exact ⟨hwmem, rfl, rfl, rfl⟩
  | stores dst r =>
    exact ⟨congrArg (·.writeBytes dst r.bytes) hwmem, rfl, hserr.trans huerr.symm, hscode.trans hucode.symm⟩

/-! ### What a host transfer does -/

/-- An offset reaches a register, nothing, or the WMEM window. -/
theorem windowMap_cases (off : Offset) :
    (∃ r, windowMap off = .register r) ∨ windowMap off = .reserved ∨ 0x100 ≤ off.toNat := by
  by_cases hw : 0x100 ≤ off.toNat
  · exact .inr (.inr hw)
  · unfold windowMap
    repeat
      refine iteInduction (motive := fun t : Target => (∃ r, t = .register r) ∨ t = .reserved ∨ _)
        (fun _ => .inl ⟨_, rfl⟩) fun _ => ?_
    rw [if_pos (by omega)]
    exact .inr (.inl rfl)

theorem hostWrite_misaligned {off : Offset} (h : misaligned off = true) (w : Word) (s : State) :
    hostWrite off w s = { s with response := .write true } := by
  rw [hostWrite_eq, busWrite_misaligned h]

theorem hostRead_misaligned {off : Offset} (h : misaligned off = true) (s : State) :
    hostRead off s = { s with response := .read 0#32 true } := by
  simp [hostRead_eq, busRead, h]

/-- Settles O39: a misaligned transfer is turned away before the window map is looked at. -/
theorem misalignedTransferChangesNothing : Obligations.MisalignedTransferChangesNothing := by
  intro s off w hoff
  have hmis : misaligned off = true := decide_eq_true hoff
  exact ⟨hostWrite_misaligned hmis w s, hostRead_misaligned hmis s⟩

/-- What a read can do to the state: only a read of WMEM during BUSY does more than answer (R68, R70). -/
inductive ReadEffect (off : Offset) (s : State) : State → Prop where
  | answered (a : Response) (h : s.status.busy = false ∨ ¬(off.toNat % 4 = 0 ∧ 0x100 ≤ off.toNat)) :
      ReadEffect off s { s with response := a }
  | refused (hb : s.status.busy = true) (ha : off.toNat % 4 = 0) (hw : 0x100 ≤ off.toNat) :
      ReadEffect off s { s.accessRefused with response := .read 0#32 false }

theorem hostRead_effect (off : Offset) (s : State) : ReadEffect off s (hostRead off s) := by
  cases hmis : misaligned off with
  | true =>
    rw [hostRead_misaligned hmis]
    exact .answered _ (.inr fun h => by simp [misaligned, h.1] at hmis)
  | false =>
    have ha : off.toNat % 4 = 0 := misaligned_eq_false.1 hmis
    by_cases hw : 0x100 ≤ off.toNat
    · obtain ⟨j, hj, rfl⟩ := exists_eq_wmemOffset ha hw
      cases hb : s.status.busy with
      | true =>
        rw [hostRead_wmem_busy hj hb]
        exact .refused hb ha hw
      | false =>
        rw [hostRead_wmem_idle hj hb]
        exact .answered _ (.inl hb)
    · have hnw : ¬(off.toNat % 4 = 0 ∧ 0x100 ≤ off.toNat) := fun h => hw h.2
      obtain ⟨r, hr⟩ | hr | hr := windowMap_cases off
      · rw [hostRead_register hr]
        exact .answered _ (.inr hnw)
      · rw [hostRead_reserved ha hr]
        exact .answered _ (.inr hnw)
      · exact absurd hr hw

/-- Nothing changed that a completion or a reset would change. -/
structure SameOutcome (s t : State) : Prop where
  status : t.status = s.status
  rlen : t.rlen = s.rlen
  wmem : t.wmem = s.wmem
  rstN : t.rstN = s.rstN
  inputs : t.inputs = s.inputs

/-- What a write can do to the state (R65 to R70). -/
inductive WriteEffect (off : Offset) (w : Word) (s : State) : State → Prop where
  | kept {t : State} (h : SameOutcome s t) (hna : s.status.busy = false ∨ off.toNat % 4 ≠ 0) :
      WriteEffect off w s t
  | clearedStatus (hb : s.status.busy = false) :
      WriteEffect off w s { s with status := s.status.writeOneToClear w, response := .write false }
  | started (hoff : off = 0x004#9) (hb : s.status.busy = false) (hstart : w.getLsbD 0 = true)
      (hsrst : w.getLsbD 1 = false) : WriteEffect off w s { s.start with response := .write false }
  | softReset (hoff : off = 0x004#9) (hsrst : w.getLsbD 1 = true) :
      WriteEffect off w s { s.resetBlock with response := .write false }
  | refused (hb : s.status.busy = true) (ha : off.toNat % 4 = 0)
      (hns : ¬(off = 0x004#9 ∧ w.getLsbD 1 = true)) :
      WriteEffect off w s { s.accessRefused with response := .write false }
  | stored {j : Nat} (hoff : off = wmemOffset j) (hj : j < 64) (hb : s.status.busy = false) :
      WriteEffect off w s
        { s with wmem := s.wmem.writeBytes (4 * j) (laneBytes w), response := .write false }

/-- A register write while idle: the writes of CTRL and STATUS by their bits, any other touches its register only. -/
theorem hostWrite_register_effect (r : Register) (w : Word) {s : State} (hb : s.status.busy = false) :
    WriteEffect r.offset w s (hostWrite r.offset w s) := by
  rw [hostWrite_register_idle (windowMap_eq_register_iff.2 rfl) hb]
  cases r with
  | ctrl =>
    simp only [writeRegister]
    cases hsrst : w.getLsbD 1 with
    | true =>
      rw [ctrlWrite, if_pos hsrst]
      exact .softReset rfl hsrst
    | false =>
      rw [ctrlWrite_of_not_srst hsrst]
      cases hstart : w.getLsbD 0 with
      | true => exact .started rfl hb hstart hsrst
      | false => exact .kept ⟨rfl, rfl, rfl, rfl, rfl⟩ (.inl hb)
  | status => exact .clearedStatus hb
  | _ => exact .kept ⟨rfl, rfl, rfl, rfl, rfl⟩ (.inl hb)

theorem hostWrite_effect (off : Offset) (w : Word) (s : State) : WriteEffect off w s (hostWrite off w s) := by
  cases hmis : misaligned off with
  | true =>
    rw [hostWrite_misaligned hmis]
    exact .kept ⟨rfl, rfl, rfl, rfl, rfl⟩ (.inr (of_decide_eq_true hmis))
  | false =>
    have ha : off.toNat % 4 = 0 := misaligned_eq_false.1 hmis
    cases hb : s.status.busy with
    | true =>
      by_cases hsoft : off = 0x004#9 ∧ w.getLsbD 1 = true
      · obtain ⟨rfl, hsrst⟩ := hsoft
        rw [hostWrite_softReset hsrst]
        exact .softReset rfl hsrst
      · rw [hostWrite_busy_refused ha hb hsoft]
        exact .refused hb ha hsoft
    | false =>
      obtain ⟨r, hr⟩ | hr | hr := windowMap_cases off
      · rw [windowMap_eq_register_iff] at hr
        subst hr
        exact hostWrite_register_effect r w hb
      · rw [hostWrite_reserved_idle ha hr hb]
        exact .kept ⟨rfl, rfl, rfl, rfl, rfl⟩ (.inl hb)
      · obtain ⟨j, hj, rfl⟩ := exists_eq_wmemOffset ha hr
        rw [hostWrite_wmem_idle hj hb]
        exact .stored rfl hj hb

/-! ### What a step does -/

/-- Every way a step gives a next state. -/
inductive StepEffect (s t : State) : Prop where
  | completed (hp : s.pending) (hm : s.engineMoves)
      (h : complete { s with inputs := s.inputs.tail } = .next t)
  | nothing (hp : ¬s.pending) (hm : s.engineMoves) (h : t = { s with inputs := s.inputs.tail })
  | read {off : Offset} {rest : List Input} (hin : s.inputs = .read off :: rest) (hr : s.rstN = true)
      (h : ReadEffect off { s with inputs := rest } t)
  | write {off : Offset} {w : Word} {rest : List Input} (hin : s.inputs = .write off w :: rest)
      (hr : s.rstN = true) (h : WriteEffect off w { s with inputs := rest } t)
  | resetLow {rest : List Input} (hin : s.inputs = .resetLow :: rest)
      (h : t = driveReset false { s with inputs := rest })
  | resetHigh {rest : List Input} (hin : s.inputs = .resetHigh :: rest)
      (h : t = driveReset true { s with inputs := rest })

/-- Where the engine has the turn, the step is its turn on the steps that are left (R12, R273). -/
theorem step_of_engineMoves {s : State} (h : s.engineMoves) :
    step s = engineTurn { s with inputs := s.inputs.tail } := by
  obtain hnil | ⟨rest, hcons⟩ := h
  · have hs : { s with inputs := s.inputs.tail } = s := by rw [hnil, List.tail_nil, ← hnil]
    rw [step_nil hnil, hs]
  · rw [step_cons hcons, hcons]
    rfl

/-- The engine's turn of a pending command is its completion step. -/
theorem step_completes {s : State} (hp : s.pending) (hm : s.engineMoves) :
    step s = complete { s with inputs := s.inputs.tail } :=
  (step_of_engineMoves hm).trans (engineTurn_pending hp)

/-- With no command pending the engine's turn changes nothing (R252). -/
theorem step_does_nothing {s : State} (hp : ¬s.pending) (hm : s.engineMoves) :
    step s = .next { s with inputs := s.inputs.tail } :=
  (step_of_engineMoves hm).trans (engineTurn_not_pending hp)

/-- Settles O5: the engine's turn of a pending command is its completion step. -/
theorem stepRunsTheDecodedCommand : Obligations.StepRunsTheDecodedCommand := fun _ hp hm =>
  ⟨step_completes hp hm, fun _ hd => (step_completes hp hm).trans (complete_of_decode hd)⟩

theorem step_effect {s t : State} (h : step s = .next t) : StepEffect s t := by
  by_cases hm : s.engineMoves
  · by_cases hp : s.pending
    · exact .completed hp hm ((step_completes hp hm).symm.trans h)
    · exact .nothing hp hm (Host.Outcome.next.inj (h.symm.trans (step_does_nothing hp hm)))
  · cases hin : s.inputs with
    | nil => exact absurd (.inl hin) hm
    | cons e rest =>
      rw [step_cons hin] at h
      obtain ⟨off, rfl, hr, rfl⟩ | ⟨off, w, rfl, hr, rfl⟩ | ⟨rfl, -⟩ | ⟨rfl, -⟩ | ⟨rfl, rfl⟩ | ⟨rfl, rfl⟩ :=
        takeInput_cases h
      · exact .read hin hr (hostRead_effect off _)
      · exact .write hin hr (hostWrite_effect off w _)
      · exact absurd (.inr ⟨rest, hin⟩) hm
      · exact absurd (.inr ⟨rest, hin⟩) hm
      · exact .resetLow hin rfl
      · exact .resetHigh hin rfl

/-! ### The invariant -/

/-- What the invariant says of STATUS and RLEN. -/
structure OutcomeInv (st : Status) (rlen : Ptr) : Prop where
  errcode_known : st.errcode.toNat ≤ 5
  busy_clear : st.busy = true → st.done = false ∧ st.err = false ∧ st.errcode = 0#4
  err_has_code : st.err = true → st.errcode ≠ 0#4
  failed_rlen : st.errcode ≠ 0#4 → rlen = 0#9
  rlen_bound : rlen.toNat ≤ Config.wmemBytes

theorem Inv.outcome {s : State} (h : Inv s) : OutcomeInv s.status s.rlen :=
  ⟨h.errcode_known, h.busy_clear, h.err_has_code, h.failed_rlen, h.rlen_bound⟩

/-- Out of reset the invariant is what it says of STATUS, RLEN and WMEM. -/
theorem Inv.of_released {s : State} (hr : s.rstN = true) (hwf : s.wmem.wf = true)
    (ho : OutcomeInv s.status s.rlen) : Inv s where
  wmem_wf := hwf
  errcode_known := ho.errcode_known
  busy_clear := ho.busy_clear
  err_has_code := ho.err_has_code
  failed_rlen := ho.failed_rlen
  rlen_bound := ho.rlen_bound
  held_in_reset := fun hlow => absurd hr (ne_true_of_eq_false hlow)

/-- Only codes 1 to 5 are produced (R39, R220). -/
theorem CmdError.code_le (e : CmdError) : e.code.toNat ≤ 5 := by
  cases e <;> decide

section
variable {st : Status} {rlen : Ptr}

theorem outcomeInv_reset : OutcomeInv Status.reset 0#9 := by
  constructor <;> decide

theorem OutcomeInv.started (h : OutcomeInv st rlen) : OutcomeInv st.started rlen where
  errcode_known := by simp
  busy_clear := fun _ => ⟨rfl, rfl, rfl⟩
  err_has_code := nofun
  failed_rlen := fun hne => absurd rfl hne
  rlen_bound := h.rlen_bound

theorem OutcomeInv.refusedAccess (h : OutcomeInv st rlen) : OutcomeInv st.refusedAccess rlen := { h with }

/-- Clearing flags while idle leaves a code without ERR, never ERR without a code (R33). -/
theorem OutcomeInv.writeOneToClear (h : OutcomeInv st rlen) (hb : st.busy = false) (w : Word) :
    OutcomeInv (st.writeOneToClear w) rlen where
  errcode_known := h.errcode_known
  busy_clear := fun hbusy => absurd hbusy (ne_true_of_eq_false hb)
  err_has_code := fun herr => h.err_has_code (Bool.and_elim_left herr)
  failed_rlen := h.failed_rlen
  rlen_bound := h.rlen_bound

theorem OutcomeInv.failed (e : CmdError) : OutcomeInv (st.failed e) 0#9 where
  errcode_known := e.code_le
  busy_clear := nofun
  err_has_code := fun _ => e.code_ne_zero
  failed_rlen := fun _ => rfl
  rlen_bound := by decide

/-- A pending command has ERR and ERRCODE 0, and success leaves them so (R230, R233). -/
theorem OutcomeInv.succeeded (h : OutcomeInv st rlen) (hb : st.busy = true) (carry : Option Bool) {n : Nat}
    (hn : n ≤ 256) : OutcomeInv (st.succeeded carry) (BitVec.ofNat 9 n) := by
  obtain ⟨-, herr, hcode⟩ := h.busy_clear hb
  exact {
    errcode_known := h.errcode_known
    busy_clear := nofun
    err_has_code := fun hset => absurd hset (ne_true_of_eq_false herr)
    failed_rlen := fun hne => absurd hcode hne
    rlen_bound := by
      rw [BitVec.toNat_ofNat, Config.wmemBytes]
      omega }

end

/-- A completion of a pending command keeps the invariant. -/
theorem Inv.apply {s : State} (h : Inv s) (hp : s.pending) {k : Completion} (hk : k.Fits) : Inv (k.apply s) := by
  cases k with
  | fails e => exact .of_released hp.1 h.wmem_wf (.failed e)
  | stores dst r =>
    have hfits : dst + r.bytes.length ≤ 256 := hk
    exact .of_released hp.1 (Memory.wf_writeBytes hfits h.wmem_wf) (h.outcome.succeeded hp.2 r.carry (by omega))

/-- The invariant says nothing of the steps to come. -/
theorem Inv.with_inputs {s : State} (h : Inv s) (is : List Input) : Inv { s with inputs := is } where
  wmem_wf := h.wmem_wf
  errcode_known := h.errcode_known
  busy_clear := h.busy_clear
  err_has_code := h.err_has_code
  failed_rlen := h.failed_rlen
  rlen_bound := h.rlen_bound
  held_in_reset := fun hlow => congrArg (fun u : State => { u with inputs := is }) (h.held_in_reset hlow)

theorem Inv.readEffect {off : Offset} {s t : State} (h : Inv s) (hr : s.rstN = true) (ht : ReadEffect off s t) :
    Inv t := by
  cases ht with
  | answered a => exact .of_released hr h.wmem_wf h.outcome
  | refused => exact .of_released hr h.wmem_wf h.outcome.refusedAccess

theorem Inv.writeEffect {off : Offset} {w : Word} {s t : State} (h : Inv s) (hr : s.rstN = true)
    (ht : WriteEffect off w s t) : Inv t := by
  cases ht with
  | kept hsame =>
    exact .of_released (hsame.rstN.trans hr) (hsame.wmem ▸ h.wmem_wf)
      (hsame.status ▸ hsame.rlen ▸ h.outcome)
  | clearedStatus hb => exact .of_released hr h.wmem_wf (h.outcome.writeOneToClear hb w)
  | started => exact .of_released hr h.wmem_wf h.outcome.started
  | softReset => exact .of_released hr Memory.wf_nil outcomeInv_reset
  | refused => exact .of_released hr h.wmem_wf h.outcome.refusedAccess
  | stored hoff hj =>
    refine .of_released hr (Memory.wf_writeBytes ?_ h.wmem_wf) h.outcome
    rw [laneBytes_length]
    omega

theorem inv_driveReset (level : Bool) (s : State) : Inv (driveReset level s) where
  wmem_wf := Memory.wf_nil
  errcode_known := outcomeInv_reset.errcode_known
  busy_clear := outcomeInv_reset.busy_clear
  err_has_code := outcomeInv_reset.err_has_code
  failed_rlen := outcomeInv_reset.failed_rlen
  rlen_bound := outcomeInv_reset.rlen_bound
  held_in_reset := fun _ => rfl

/-- Settles O49: each effect a step can have keeps the invariant. -/
theorem everyStepKeepsTheInvariant : Obligations.EveryStepKeepsTheInvariant := by
  intro s t h hstep
  cases step_effect hstep with
  | completed hp _ hcomplete =>
    obtain ⟨k, hk, rfl⟩ := exists_apply_of_complete hcomplete
    exact (h.with_inputs s.inputs.tail).apply hp hk
  | nothing _ _ ht =>
    subst ht
    exact h.with_inputs _
  | @read off rest _ hr ht => exact (h.with_inputs rest).readEffect hr ht
  | @write off w rest _ hr ht => exact (h.with_inputs rest).writeEffect hr ht
  | resetLow _ ht | resetHigh _ ht =>
    subst ht
    exact inv_driveReset _ _

/-- Settles O50: reset is released and has its reset values. -/
theorem resetMeetsTheInvariant : Obligations.ResetMeetsTheInvariant :=
  .of_released rfl Memory.wf_nil outcomeInv_reset

end Sys2Proof.Machine
end

section
/-! PROOFS. The whole machine: which steps change BUSY, ACCERR, WMEM and C, and that no step faults. -/

namespace Sys2Proof.Machine

/-! ### Faults and refusals -/

/-- The completion step of every state gives a next state. -/
theorem exists_complete_next (s : State) : ∃ t, complete s = .next t := by
  obtain ⟨k, -, h⟩ := exists_complete_eq s
  exact ⟨_, h⟩

/-- The engine's turn gives a next state, pending or not. -/
theorem exists_engineTurn_next (s : State) : ∃ t, engineTurn s = .next t := by
  by_cases hp : s.pending
  · rw [engineTurn_pending hp]
    exact exists_complete_next s
  · exact ⟨s, engineTurn_not_pending hp⟩

/-- A step of the environment gives a next state, but for a transfer while `rst_n` is low, which is refused. -/
theorem takeInput_next_or_refused (e : Input) (s : State) :
    (∃ t, takeInput e s = .next t) ∨ (s.rstN = false ∧ takeInput e s = .refused .transferDuringReset) := by
  cases e with
  | read off =>
    cases hr : s.rstN with
    | true => exact .inl ⟨_, if_pos hr⟩
    | false => exact .inr ⟨rfl, if_neg (ne_true_of_eq_false hr)⟩
  | write off w =>
    cases hr : s.rstN with
    | true => exact .inl ⟨_, if_pos hr⟩
    | false => exact .inr ⟨rfl, if_neg (ne_true_of_eq_false hr)⟩
  | engineTurn => exact .inl (exists_engineTurn_next s)
  | resetLow | resetHigh => exact .inl ⟨_, rfl⟩

theorem step_next_or_refused (s : State) :
    (∃ t, step s = .next t) ∨ (s.rstN = false ∧ step s = .refused .transferDuringReset) := by
  cases hin : s.inputs with
  | nil =>
    rw [step_nil hin]
    exact .inl (exists_engineTurn_next s)
  | cons e rest =>
    rw [step_cons hin]
    exact takeInput_next_or_refused e { s with inputs := rest }

/-- Settles O51: a step gives a next state or is the refused transfer. -/
theorem noStepFaults : Obligations.NoStepFaults := by
  intro s
  obtain ⟨t, ht⟩ | ⟨hr, href⟩ := step_next_or_refused s
  · rw [ht]
    exact ⟨trivial, nofun⟩
  · rw [href]
    exact ⟨rfl, fun _ _ => hr⟩

/-- Settles O46: the edges of `rst_n` are steps to the reset values, and a transfer while it is low is the refusal
of `takeInput`. -/
theorem powerOnResetClearsTheBlock : Obligations.PowerOnResetClearsTheBlock := by
  intro s rest off w
  exact ⟨step_resetLow, step_resetHigh,
    fun hr hin => (step_cons hin).trans (if_neg (ne_true_of_eq_false hr)),
    fun hr hin => (step_cons hin).trans (if_neg (ne_true_of_eq_false hr))⟩

/-! ### BUSY -/

/-- A step that leaves BUSY alone neither sets nor clears it. -/
theorem neither_sets_nor_clears {b b' : Bool} (h : b' = b) {P Q : Prop} :
    (b = false → b' = true → P) ∧ (b = true → b' = false → Q) := by
  subst h
  exact ⟨fun hfalse htrue => absurd htrue (ne_true_of_eq_false hfalse),
    fun htrue hfalse => absurd htrue (ne_true_of_eq_false hfalse)⟩

/-- Settles O52: of the effects of a step only START sets BUSY, and only a completion and the resets clear it. -/
theorem onlyStartSetsBusy : Obligations.OnlyStartSetsBusy := by
  intro s t hstep
  cases step_effect hstep with
  | completed hp hm hcomplete =>
    exact ⟨fun hidle => absurd hp.2 (ne_true_of_eq_false hidle), fun _ _ => .inl ⟨hp, hm, hcomplete⟩⟩
  | nothing _ _ ht =>
    subst ht
    exact neither_sets_nor_clears rfl
  | read _ _ ht => cases ht <;> exact neither_sets_nor_clears rfl
  | write hin _ ht =>
    cases ht with
    | kept hsame => exact neither_sets_nor_clears (congrArg Status.busy hsame.status)
    | clearedStatus | refused | stored => exact neither_sets_nor_clears rfl
    | started hoff hb hstart hsrst =>
      subst hoff
      exact ⟨fun _ _ => ⟨_, _, hin, hstart, hsrst⟩, fun hbusy => absurd hbusy (ne_true_of_eq_false hb)⟩
    | softReset hoff hsrst =>
      subst hoff
      exact ⟨nofun, fun _ _ => .inr (.inl ⟨_, _, hin, hsrst⟩)⟩
  | resetLow hin ht =>
    subst ht
    exact ⟨nofun, fun _ _ => .inr (.inr (.inl ⟨_, hin⟩))⟩
  | resetHigh hin ht =>
    subst ht
    exact ⟨nofun, fun _ _ => .inr (.inr (.inr ⟨_, hin⟩))⟩

/-! ### ACCERR -/

/-- The next step is a host access that is refused while BUSY: an aligned write but a soft reset, or an aligned read
of WMEM (R38, R70). -/
def State.accessComes (s : State) : Prop :=
  (∃ off w rest, s.inputs = .write off w :: rest ∧ off.toNat % 4 = 0 ∧
    ¬(off = 0x004#9 ∧ w.getLsbD 1 = true)) ∨
  (∃ off rest, s.inputs = .read off :: rest ∧ off.toNat % 4 = 0 ∧ 0x100 ≤ off.toNat)

theorem State.accessComes_read {s : State} {off : Offset} {rest : List Input} (h : s.inputs = .read off :: rest) :
    s.accessComes ↔ off.toNat % 4 = 0 ∧ 0x100 ≤ off.toNat := by
  simp [State.accessComes, h]

theorem State.accessComes_write {s : State} {off : Offset} {w : Word} {rest : List Input}
    (h : s.inputs = .write off w :: rest) :
    s.accessComes ↔ off.toNat % 4 = 0 ∧ ¬(off = 0x004#9 ∧ w.getLsbD 1 = true) := by
  simp [State.accessComes, h]

theorem State.not_accessComes_of_engineMoves {s : State} (h : s.engineMoves) : ¬s.accessComes := by
  obtain hnil | ⟨rest, hcons⟩ := h
  · simp [State.accessComes, hnil]
  · simp [State.accessComes, hcons]

/-- ACCERR stays 0 at a step that is no refused access. -/
theorem accerr_iff_of_not {b : Bool} {P : Prop} (hb : b = false) (hP : ¬P) : b = true ↔ P :=
  ⟨fun h => absurd h (ne_true_of_eq_false hb), fun h => absurd h hP⟩

/-- Settles O53: of the effects of a step only the refusals set ACCERR. -/
theorem accerrIsSetExactlyByRefusedAccesses : Obligations.AccerrIsSetExactlyByRefusedAccesses := by
  intro s t hstep hclear
  change t.status.accerr = true ↔ s.status.busy = true ∧ s.accessComes
  cases step_effect hstep with
  | completed hp hm hcomplete =>
    obtain ⟨k, -, rfl⟩ := exists_apply_of_complete hcomplete
    exact accerr_iff_of_not ((k.apply_accerr _).trans hclear) fun h => s.not_accessComes_of_engineMoves hm h.2
  | nothing _ hm ht =>
    subst ht
    exact accerr_iff_of_not hclear fun h => s.not_accessComes_of_engineMoves hm h.2
  | read hin _ ht =>
    rw [State.accessComes_read hin]
    cases ht with
    | answered a hna =>
      exact accerr_iff_of_not hclear fun ⟨hb, hw⟩ => hna.elim (ne_false_of_eq_true hb) (· hw)
    | refused hb ha hw => exact ⟨fun _ => ⟨hb, ha, hw⟩, fun _ => rfl⟩
  | write hin _ ht =>
    rw [State.accessComes_write hin]
    cases ht with
    | kept hsame hna =>
      refine accerr_iff_of_not ?_ fun ⟨hb, ha, _⟩ => hna.elim (ne_false_of_eq_true hb) (· ha)
      rw [hsame.status]
      exact hclear
    | clearedStatus hb =>
      refine accerr_iff_of_not ?_ fun h => ne_false_of_eq_true h.1 hb
      simp [hclear]
    | started _ hb | stored _ _ hb => exact accerr_iff_of_not hclear fun h => ne_false_of_eq_true h.1 hb
    | softReset hoff hsrst => exact accerr_iff_of_not rfl fun h => h.2.2 ⟨hoff, hsrst⟩
    | refused hb ha hns => exact ⟨fun _ => ⟨hb, ha, hns⟩, fun _ => rfl⟩
  | resetLow hin ht | resetHigh hin ht =>
    subst ht
    exact accerr_iff_of_not rfl fun h => by simp [State.accessComes, hin] at h

/-! ### WMEM and the carry -/

/-- A completion that changes WMEM or C is of a command that passes its checks (R231). -/
theorem firstFailingCode_eq_zero_of_changes {s t : State} (h : complete s = .next t)
    (hne : t.wmem ≠ s.wmem ∨ t.status.c ≠ s.status.c) : firstFailingCode s = 0#4 := by
  by_contra hcode
  rw [(completionReportsTheFirstFailingCheck s).1 hcode] at h
  cases h
  exact hne.elim (· rfl) (· rfl)

/-- Settles O54: of the effects of a step only a stored word, a stored result and the resets change WMEM. -/
theorem onlyTheseStepsChangeWmem : Obligations.OnlyTheseStepsChangeWmem := by
  intro s t hstep hne
  cases step_effect hstep with
  | completed hp hm hcomplete =>
    have hcode : firstFailingCode { s with inputs := s.inputs.tail } = 0#4 :=
      firstFailingCode_eq_zero_of_changes hcomplete (.inl hne)
    exact .inr (.inl ⟨hp, hm, hcode⟩)
  | nothing _ _ ht =>
    subst ht
    exact absurd rfl hne
  | read _ _ ht => cases ht <;> exact absurd rfl hne
  | write hin _ ht =>
    cases ht with
    | kept hsame => exact absurd hsame.wmem hne
    | clearedStatus | started | refused => exact absurd rfl hne
    | softReset hoff hsrst =>
      subst hoff
      exact .inr (.inr (.inl ⟨_, _, hin, hsrst⟩))
    | @stored j hoff hj hb =>
      subst hoff
      refine .inl ⟨hb, _, _, _, hin, misaligned_eq_false.1 (misaligned_wmemOffset j), ?_⟩
      rw [wmemOffset, BitVec.toNat_ofNat]
      omega
  | resetLow hin _ => exact .inr (.inr (.inr (.inl ⟨_, hin⟩)))
  | resetHigh hin _ => exact .inr (.inr (.inr (.inr ⟨_, hin⟩)))

/-- The dropped bit of an operand in WMEM: bit 7 of its first byte, or 0 of an empty operand (R130, R131). -/
theorem droppedBit_bytes (m : Memory) (a n : Nat) :
    droppedBit (m.bytes a n) = (decide (n ≠ 0) && (m.read a).getLsbD 7) := by
  cases n with
  | zero => rfl
  | succ n => simp [Memory.bytes, List.range_succ_eq_map]

/-- A command that changes C is a shl1 inside WMEM, and C is the bit it drops (R37, R131). -/
theorem exec_changes_carry {i : Instr} {s t : State} (h : exec i s = .next t) (hne : t.status.c ≠ s.status.c) :
    ∃ dst srca len, i = .shl1 dst srca len ∧ srca + len ≤ 256 ∧ dst + len ≤ 256 ∧
      t.status.c = (decide (len ≠ 0) && (s.wmem.read srca).getLsbD 7) := by
  have hshl1 : ∃ dst srca len, i = .shl1 dst srca len := by
    obtain ⟨e, rfl⟩ | ⟨dst, r, -, hcarry, rfl⟩ := exec_cases h
    · exact absurd rfl hne
    · refine hcarry fun hnone => hne ?_
      simp [hnone]
  obtain ⟨dst, srca, len, rfl⟩ := hshl1
  obtain ⟨e, -, rfl⟩ | ⟨hchecks, r, hr, -, rfl⟩ := runCommand_cases h
  · exact absurd rfl hne
  · simp only [firstError_eq_none, List.forall_mem_cons, rangeError_eq_none, unaryOperands] at hchecks
    obtain ⟨⟨hsrc, hdst, -⟩, -⟩ := hchecks
    rw [unaryCompute_ok hsrc] at hr
    cases hr
    exact ⟨dst, srca, len, rfl, hsrc, hdst, droppedBit_bytes s.wmem srca len⟩

/-- A completion that changes C is of the shl1 that CMD and the operand registers hold. -/
theorem complete_changes_carry {s t : State} (h : complete s = .next t) (hne : t.status.c ≠ s.status.c) :
    s.cmd.op = 0x11#8 ∧
      t.status.c = (decide (s.len ≠ 0#9) && (s.wmem.read s.srca.toNat).getLsbD 7) := by
  cases hd : decodeCommand s.command with
  | error e =>
    rw [complete_of_decode_error hd] at h
    cases h
    exact absurd rfl hne
  | ok i =>
    rw [complete_of_decode hd] at h
    obtain ⟨dst, srca, len, hi, -, -, hc⟩ := exec_changes_carry h hne
    obtain ⟨o, ho, hoi⟩ := exists_hasFields_of_decodeCommand hd
    rw [hi] at hoi
    cases o <;> cases hoi
    refine ⟨ho, hc.trans ?_⟩
    congr 2
    simp [BitVec.toNat_eq]

/-- Settles O22: of the effects of a step only the completion of a shl1 and the resets change C. -/
theorem onlyShl1AndResetsChangeTheCarry : Obligations.OnlyShl1AndResetsChangeTheCarry := by
  refine ⟨fun i s t => exec_changes_carry, fun s t hstep hne => ?_⟩
  cases step_effect hstep with
  | completed hp hm hcomplete =>
    obtain ⟨hop, hc⟩ := complete_changes_carry hcomplete hne
    have hcode : firstFailingCode { s with inputs := s.inputs.tail } = 0#4 :=
      firstFailingCode_eq_zero_of_changes hcomplete (.inr hne)
    exact .inl ⟨hp, hm, hop, hcode, hc⟩
  | nothing _ _ ht =>
    subst ht
    exact absurd rfl hne
  | read _ _ ht => cases ht <;> exact absurd rfl hne
  | write hin _ ht =>
    cases ht with
    | kept hsame => exact absurd (congrArg Status.c hsame.status) hne
    | clearedStatus | started | refused | stored => exact absurd rfl hne
    | softReset hoff hsrst =>
      subst hoff
      exact .inr ⟨rfl, .inl ⟨_, _, hin, hsrst⟩⟩
  | resetLow hin ht =>
    subst ht
    exact .inr ⟨rfl, .inr (.inl ⟨_, hin⟩)⟩
  | resetHigh hin ht =>
    subst ht
    exact .inr ⟨rfl, .inr (.inr ⟨_, hin⟩)⟩

end Sys2Proof.Machine
end

section
/-! PROOFS. The host interface: the words of STATUS, CMD and IE bit by bit, and that the window map is one to one. -/

namespace Sys2Proof.Machine

/-! ### STATUS -/

/-- A flag is one bit of its word. -/
theorem getLsbD_flagAt (b : Bool) {i : Nat} (hi : i < 32) (k : Nat) :
    (flagAt b i).getLsbD k = (b && decide (k = i)) := by
  have hbit (j : Nat) : ((BitVec.ofBool b).setWidth 32).getLsbD j = (b && decide (j = 0)) := by
    cases b <;> simp [BitVec.getLsbD_one]
  rw [flagAt, BitVec.getLsbD_shiftLeft, hbit]
  grind

/-- The bits of STATUS (R33). -/
theorem Status.getLsbD_toWord (st : Status) (k : Nat) :
    st.toWord.getLsbD k =
      (st.busy && decide (k = 0) || st.done && decide (k = 1) || st.err && decide (k = 2) ||
        st.c && decide (k = 3) || st.accerr && decide (k = 4) ||
        decide (8 ≤ k) && st.errcode.getLsbD (k - 8)) := by
  have herrcode : (st.errcode.setWidth 32 <<< 8).getLsbD k = (decide (8 ≤ k) && st.errcode.getLsbD (k - 8)) := by
    rw [BitVec.getLsbD_shiftLeft, BitVec.getLsbD_setWidth]
    have : st.errcode.getLsbD (k - 8) = true → k - 8 < 4 := BitVec.lt_of_getLsbD
    grind
  simp only [Status.toWord, BitVec.getLsbD_or, herrcode, getLsbD_flagAt _ (show 0 < 32 by decide),
    getLsbD_flagAt _ (show 1 < 32 by decide), getLsbD_flagAt _ (show 2 < 32 by decide),
    getLsbD_flagAt _ (show 3 < 32 by decide), getLsbD_flagAt _ (show 4 < 32 by decide)]

/-- ERRCODE is bits 11:8 of STATUS (R33). -/
theorem Status.extractLsb'_toWord (st : Status) : st.toWord.extractLsb' 8 4 = st.errcode := by
  apply BitVec.eq_of_getLsbD_eq
  intro i hi
  rw [BitVec.getLsbD_extractLsb', st.getLsbD_toWord]
  grind

/-- The bits of STATUS that a write clears are those of the mask 0x16 (R33). -/
theorem getLsbD_w1cMask (k : Nat) : (0x00000016#32).getLsbD k = decide (k = 1 ∨ k = 2 ∨ k = 4) := by
  by_cases hk : k < 32
  · interval_cases k <;> decide
  · rw [BitVec.getLsbD_of_ge _ _ (by omega)]
    grind

/-- A write-one-to-clear clears the written bits of the mask in the word (R33). -/
theorem Status.toWord_writeOneToClear (st : Status) (w : Word) :
    (st.writeOneToClear w).toWord = st.toWord &&& ~~~(w &&& 0x00000016#32) := by
  apply BitVec.eq_of_getLsbD_eq
  intro k hk
  rw [BitVec.getLsbD_and, BitVec.getLsbD_not, BitVec.getLsbD_and, getLsbD_w1cMask, Status.getLsbD_toWord,
    Status.getLsbD_toWord]
  simp only [Status.writeOneToClear_busy, Status.writeOneToClear_done, Status.writeOneToClear_err,
    Status.writeOneToClear_c, Status.writeOneToClear_accerr, Status.writeOneToClear_errcode]
  grind

/-- Settles O42: a read returns `Status.toWord`, whose bits are the fields, and an idle write is
`Status.writeOneToClear`. -/
theorem statusWordAndItsWriteOneToClear : Obligations.StatusWordAndItsWriteOneToClear := by
  refine ⟨fun s => ⟨rfl, s.status.toWord, hostRead_register windowMap_status s, ?bit0, ?bit1, ?bit2, ?bit3, ?bit4,
    s.status.extractLsb'_toWord, fun k hk => ?others⟩, fun s w ⟨_, hb⟩ => ?write⟩
  case bit0 | bit1 | bit2 | bit3 | bit4 =>
    rw [Status.getLsbD_toWord]
    simp
  case others =>
    have hcode : 12 ≤ k → s.status.errcode.getLsbD (k - 8) = false := fun h => BitVec.getLsbD_of_ge _ _ (by omega)
    rw [Status.getLsbD_toWord]
    grind
  case write =>
    have hwrite : hostWrite 0x008#9 w s =
        { s with status := s.status.writeOneToClear w, response := .write false } :=
      hostWrite_register_idle windowMap_status hb w
    intro t
    change hostWrite 0x008#9 w s = _ ∧ (hostWrite 0x008#9 w s).status.toWord = _ ∧
      (_ → (hostWrite 0x008#9 w s).irq = false)
    rw [hwrite]
    refine ⟨rfl, s.status.toWord_writeOneToClear w, fun hbit => ?_⟩
    simp [State.irq, hbit]

/-! ### CMD and IE -/

/-- Of a word written to CMD the bits 7:0, 10:8 and 23:16 are read back (R41). -/
theorem CmdWord.toWord_ofWord (w : Word) : (CmdWord.ofWord w).toWord = w &&& 0x00FF07FF#32 := by
  apply BitVec.eq_of_getLsbD_eq
  intro k hk
  simp only [CmdWord.toWord, CmdWord.ofWord, opField, algField, immField, BitVec.getLsbD_or, BitVec.getLsbD_and,
    BitVec.getLsbD_shiftLeft, BitVec.getLsbD_setWidth, BitVec.getLsbD_extractLsb']
  interval_cases k <;> simp

/-- Of a word written to IE bit 0 is read back (R40). -/
theorem flagAt_getLsbD_zero (w : Word) : flagAt (w.getLsbD 0) 0 = w &&& 0x00000001#32 := by
  apply BitVec.eq_of_getLsbD_eq
  intro k hk
  rw [getLsbD_flagAt _ (by decide), BitVec.getLsbD_and, BitVec.getLsbD_one]
  grind

/-- Settles O37: the idle writes of CMD and IE are their arms of `writeRegister`, and the reads their words. -/
theorem cmdAndIeKeepTheirStoredBits : Obligations.CmdAndIeKeepTheirStoredBits := by
  intro s w ⟨_, hb⟩
  refine ⟨hostWrite_register_idle windowMap_cmd hb w, hostWrite_register_idle windowMap_ie hb w, ?_, ?_⟩
  · rw [hostRead_register windowMap_cmd, hostWrite_register_idle windowMap_cmd hb, ← CmdWord.toWord_ofWord]
    rfl
  · rw [hostRead_register windowMap_ie, hostWrite_register_idle windowMap_ie hb, ← flagAt_getLsbD_zero]
    rfl

/-! ### The window map -/

/-- Every aligned offset is a register's, reserved, or that of a WMEM word (R64). -/
theorem aligned_offset_cases {off : Offset} (ha : off.toNat % 4 = 0) :
    (∃ r : Register, off = r.offset) ∨ windowMap off = .reserved ∨ ∃ j < 64, off = wmemOffset j := by
  obtain ⟨r, hr⟩ | hr | hr := windowMap_cases off
  · exact .inl ⟨r, windowMap_eq_register_iff.1 hr⟩
  · exact .inr (.inl hr)
  · exact .inr (.inr (exists_eq_wmemOffset ha hr))

/-- Settles O48: an aligned offset is determined by its register or its WMEM word, and BASE is a multiple of the
window. -/
theorem noOffsetAliasesAnother : Obligations.NoOffsetAliasesAnother := by
  refine ⟨fun o p ho hp hmap hres => ?_, Nat.mul_mod_right _ _, fun _ => rfl⟩
  obtain ⟨r, rfl⟩ | hr | ⟨j, hj, rfl⟩ := aligned_offset_cases ho
  · rw [windowMap_eq_register_iff.2 rfl] at hmap
    exact (windowMap_eq_register_iff.1 hmap.symm).symm
  · exact absurd hr hres
  · have hword : windowMap (wmemOffset j) = .wmemWord j := windowMap_wmem hj
    rw [hword] at hmap
    obtain ⟨r, rfl⟩ | hr | ⟨i, hi, rfl⟩ := aligned_offset_cases hp
    · rw [windowMap_eq_register_iff.2 rfl] at hmap
      cases hmap
    · rw [hr] at hmap
      cases hmap
    · rw [show windowMap (wmemOffset i) = .wmemWord i from windowMap_wmem hi] at hmap
      cases hmap
      rfl

end Sys2Proof.Machine
end

section
/-! PROOFS. The laws of the byte functions: the shift, exclusive or, the padded length and the CBC chain. -/

namespace Sys2Proof.Machine

/-! ### Big-endian readings -/

theorem intBe_append_singleton (bs : List Byte) (b : Byte) : intBe (bs ++ [b]) = 256 * intBe bs + b.toNat := by
  simp [intBe]

/-- The first byte is the most significant (R7). -/
theorem intBe_cons (b : Byte) (bs : List Byte) : intBe (b :: bs) = b.toNat * 256 ^ bs.length + intBe bs := by
  induction bs using List.reverseRecOn with
  | nil => simp [intBe]
  | append_singleton bs c ih =>
    rw [← List.cons_append, intBe_append_singleton, intBe_append_singleton, ih, List.length_append,
      List.length_singleton, pow_succ]
    ring

@[simp] theorem intBe_nil : intBe [] = 0 := rfl

theorem intBe_lt (bs : List Byte) : intBe bs < 256 ^ bs.length := by
  induction bs with
  | nil => simp
  | cons b bs ih =>
    rw [intBe_cons, List.length_cons, pow_succ]
    have hb : b.toNat < 256 := b.isLt
    nlinarith

theorem two_pow_eight_mul (n : Nat) : 2 ^ (8 * n) = 256 ^ n := pow_mul 2 8 n

/-! ### The shift -/

theorem toNat_shiftLeft_one (b : Byte) : (b <<< 1).toNat = 2 * (b.toNat % 128) := by
  rw [BitVec.toNat_shiftLeft, Nat.shiftLeft_eq]
  omega

theorem toNat_topBit (b : Byte) : (b.getLsbD 7).toNat = b.toNat / 128 := by
  have hb : b.toNat < 256 := b.isLt
  rw [BitVec.getLsbD, Nat.toNat_testBit]
  omega

/-- Twice a byte is the bit shifted out, at 256, and the byte shifted left. -/
theorem two_mul_toNat_byte (b : Byte) : 2 * b.toNat = (b.getLsbD 7).toNat * 256 + (b <<< 1).toNat := by
  rw [toNat_shiftLeft_one, toNat_topBit]
  omega

/-- A byte shifted left takes in the top bit of the next one as its lowest. -/
theorem toNat_shiftLeft_or_shiftRight (a b : Byte) :
    ((a <<< 1) ||| (b >>> 7)).toNat = (a <<< 1).toNat + (b.getLsbD 7).toNat := by
  have hb : b.toNat / 128 < 2 ^ 1 := by
    have : b.toNat < 256 := b.isLt
    omega
  have hdisjoint := Nat.shiftLeft_add_eq_or_of_lt hb (a.toNat % 128)
  have heven : (a.toNat % 128) <<< 1 = 2 * (a.toNat % 128) := by rw [Nat.shiftLeft_eq, pow_one, Nat.mul_comm]
  rw [heven] at hdisjoint
  rw [BitVec.toNat_or, toNat_shiftLeft_one, toNat_topBit, BitVec.toNat_ushiftRight, Nat.shiftRight_eq_div_pow]
  exact hdisjoint.symm

/-- Twice an operand is the dropped bit above the shifted operand (R132). -/
theorem two_mul_intBe (a : List Byte) :
    2 * intBe a = (droppedBit a).toNat * 256 ^ a.length + intBe (shl1Bytes a) := by
  induction a using shl1Bytes.induct with
  | case1 => rfl
  | case2 a => simpa [intBe_cons] using two_mul_toNat_byte a
  | case3 a b rest ih =>
    rw [droppedBit_cons] at ih
    rw [droppedBit_cons, shl1Bytes_cons, intBe_cons a, intBe_cons (_ ||| _), shl1Bytes_length,
      toNat_shiftLeft_or_shiftRight, show (a :: b :: rest).length = (b :: rest).length + 1 from rfl, pow_succ]
    linear_combination 256 ^ (b :: rest).length * two_mul_toNat_byte a + ih

theorem intBe_shl1Bytes (a : List Byte) : intBe (shl1Bytes a) = 2 * intBe a % 2 ^ (8 * a.length) := by
  have hlt := intBe_lt (shl1Bytes a)
  rw [shl1Bytes_length] at hlt
  rw [two_pow_eight_mul, two_mul_intBe, Nat.add_comm, Nat.add_mul_mod_self_right, Nat.mod_eq_of_lt hlt]

/-- The dropped bit is the top bit of the operand's number (R132). -/
theorem toNat_droppedBit {a : List Byte} (h : a ≠ []) :
    (droppedBit a).toNat = intBe a / 2 ^ (8 * a.length - 1) := by
  obtain ⟨b, rest, rfl⟩ := List.exists_cons_of_ne_nil h
  have hpow : 2 ^ (8 * (b :: rest).length - 1) = 256 ^ rest.length * 128 := by
    rw [List.length_cons, show 8 * (rest.length + 1) - 1 = 8 * rest.length + 7 by omega, pow_add, two_pow_eight_mul]
    rfl
  have hrest : (b.toNat * 256 ^ rest.length + intBe rest) / 256 ^ rest.length = b.toNat := by
    rw [Nat.add_comm, Nat.add_mul_div_right _ _ (by positivity), Nat.div_eq_of_lt (intBe_lt rest), Nat.zero_add]
  rw [hpow, intBe_cons, ← Nat.div_div_eq_div_mul, hrest, droppedBit_cons, toNat_topBit]

/-- Settles O23: the third clause is `two_mul_intBe`, and the first two are its remainder and its quotient. -/
theorem shl1ArithmeticLaw : Obligations.Shl1ArithmeticLaw := by
  intro a ha
  refine ⟨intBe_shl1Bytes a, toNat_droppedBit ha, ?_⟩
  rw [Nat.mul_comm, two_mul_intBe, two_pow_eight_mul]

/-! ### Exclusive or -/

@[simp] theorem xorBytes_cons (x y : Byte) (a b : List Byte) :
    xorBytes (x :: a) (y :: b) = (x ^^^ y) :: xorBytes a b := rfl

theorem xorBytes_self (a : List Byte) : xorBytes a a = zeros a.length := by
  simp [xorBytes, zeros]

theorem xorBytes_zeros (a : List Byte) : xorBytes a (zeros a.length) = a := by
  induction a with
  | nil => rfl
  | cons x a ih => simpa [zeros, List.replicate_succ] using ih

theorem xorBytes_comm (a b : List Byte) : xorBytes a b = xorBytes b a :=
  List.zipWith_comm_of_comm BitVec.xor_comm

theorem xorBytes_assoc (a b c : List Byte) : xorBytes (xorBytes a b) c = xorBytes a (xorBytes b c) := by
  induction a generalizing b c with
  | nil => rfl
  | cons x a ih =>
    cases b with
    | nil => rfl
    | cons y b =>
      cases c with
      | nil => rfl
      | cons z c => simp [ih, BitVec.xor_assoc]

/-- The zero string of a longer operand leaves a string as it is. -/
theorem zeros_xorBytes {n : Nat} {b : List Byte} (h : b.length = n) : xorBytes (zeros n) b = b := by
  rw [xorBytes_comm, ← h, xorBytes_zeros]

/-- Exclusive or is byte by byte (R120). -/
theorem getD_xorBytes {a b : List Byte} (h : a.length = b.length) (i : Nat) :
    (xorBytes a b).getD i 0x00#8 = a.getD i 0x00#8 ^^^ b.getD i 0x00#8 := by
  induction a generalizing b i with
  | nil =>
    obtain rfl : b = [] := List.length_eq_zero_iff.1 h.symm
    simp
  | cons x a ih =>
    obtain ⟨y, b, rfl⟩ := List.exists_cons_of_length_pos (l := b) (by simp [← h])
    cases i with
    | zero => rfl
    | succ i => simpa using ih (Nat.succ.inj h) i

/-- Settles O24: the laws of exclusive or, byte by byte and then bit by bit. -/
theorem xorLaws : Obligations.XorLaws := by
  intro a b c hab hbc
  refine ⟨xorBytes_self a, xorBytes_zeros a, xorBytes_comm a b, xorBytes_assoc a b c, ?_, fun i _ k _ => ?_⟩
  · rw [← xorBytes_assoc, xorBytes_self, zeros_xorBytes hab.symm]
  · rw [getD_xorBytes hab, BitVec.getLsbD_xor]

/-! ### The padded length -/

/-- The padded length is a multiple of a positive modulus (R140). -/
theorem dvd_padLength (n m : Nat) (hm : 0 < m) : m ∣ padLength n m := by
  unfold padLength
  split
  · next h => exact Nat.dvd_of_mod_eq_zero (h.resolve_left hm.ne')
  · exact Nat.dvd_mul_left m _

/-- The padding is shorter than the modulus (R140). -/
theorem padLength_lt (n m : Nat) (hm : 0 < m) : padLength n m < n + m := by
  unfold padLength
  split
  · omega
  · next h =>
    have hdiv := Nat.div_add_mod n m
    have hpos : 0 < n % m := Nat.pos_of_ne_zero fun h0 => h (.inr h0)
    rw [Nat.add_mul, Nat.one_mul, Nat.mul_comm]
    omega

/-- Of two multiples of m less than m apart neither is above the other. -/
theorem le_of_dvd_of_lt_add {m a b : Nat} (ha : m ∣ a) (hb : m ∣ b) (h : a < b + m) : a ≤ b := by
  obtain ⟨x, rfl⟩ := ha
  obtain ⟨y, rfl⟩ := hb
  rw [← Nat.mul_succ] at h
  exact Nat.mul_le_mul_left m (Nat.lt_succ_iff.1 (Nat.lt_of_mul_lt_mul_left h))

/-- Settles O26: the padded length is a multiple of m less than m above the length. -/
theorem padLengthIsTheSmallestMultiple : Obligations.PadLengthIsTheSmallestMultiple := by
  intro n m
  refine ⟨padLength_zero n, by simp [padLength], fun hm => ?_, fun hn hm => ?_⟩
  · have hlt := padLength_lt n m hm
    refine ⟨dvd_padLength n m hm, padLength_ge n m, by omega, fun k hk hdvd => ?_⟩
    exact le_of_dvd_of_lt_add (dvd_padLength n m hm) hdvd (by omega)
  · obtain rfl | hpos := Nat.eq_zero_or_pos m
    · rw [padLength_zero]
      omega
    · have := padLength_lt n m hpos
      omega

/-! ### The CBC chain -/

section
variable {enc : List Byte → List Byte} {bs : Nat}

/-- Past the first of equal blocks, block `n + 1` is block `n` of the rest. -/
theorem drop_block_succ {c : List Byte} (hc : c.length = bs) (r : List Byte) (n : Nat) :
    (c ++ r).drop (bs * (n + 1)) = r.drop (bs * n) := by
  rw [Nat.mul_succ, Nat.add_comm, ← List.drop_drop, List.drop_left' hc]

/-- Block `j` of a CBC ciphertext is the cipher of plaintext block `j` combined with the block before it (R150). -/
theorem cbcEncrypt_block (h : ∀ x, (enc x).length = bs) {k j : Nat} (hj : j < k) (iv p : List Byte) :
    ((cbcEncrypt enc bs k iv p).drop (bs * j)).take bs =
      enc (xorBytes ((p.drop (bs * j)).take bs)
        (if j = 0 then iv else ((cbcEncrypt enc bs k iv p).drop (bs * (j - 1))).take bs)) := by
  obtain ⟨k, rfl⟩ := Nat.exists_eq_add_one_of_ne_zero (Nat.ne_zero_of_lt hj)
  induction j generalizing k iv p with
  | zero => simp [h]
  | succ j ih =>
    obtain ⟨k, rfl⟩ := Nat.exists_eq_add_one_of_ne_zero (show k ≠ 0 by omega)
    have hfirst := h (xorBytes (p.take bs) iv)
    rw [cbcEncrypt_succ, drop_block_succ hfirst, ih _ _ k (by omega), List.drop_drop, Nat.mul_succ, Nat.add_comm]
    congr 2
    cases j with
    | zero => simp [hfirst]
    | succ i => simp [drop_block_succ hfirst]

/-- A CBC pass over two plaintexts goes on from the last ciphertext block of the first (R152). -/
theorem cbcEncrypt_append (h : ∀ x, (enc x).length = bs) (j k : Nat) (iv p q : List Byte)
    (hp : p.length = (j + 1) * bs) :
    cbcEncrypt enc bs (j + 1 + k) iv (p ++ q) =
      cbcEncrypt enc bs (j + 1) iv p ++
        cbcEncrypt enc bs k ((cbcEncrypt enc bs (j + 1) iv p).drop (j * bs)) q := by
  induction j generalizing iv p with
  | zero =>
    have hbs : p.length = bs := by omega
    have hrest : p.drop bs = [] := List.drop_eq_nil_of_le hbs.le
    rw [Nat.zero_add, Nat.add_comm, cbcEncrypt_succ, List.take_append_of_le_length hbs.ge,
      List.drop_append_of_le_length hbs.ge, hrest]
    simp
  | succ j ih =>
    have hbs : bs ≤ p.length := hp ▸ Nat.le_mul_of_pos_left bs (Nat.succ_pos _)
    have hrest : (p.drop bs).length = (j + 1) * bs := by
      rw [List.length_drop, hp, Nat.succ_mul, Nat.add_sub_cancel]
    have hfirst := h (xorBytes (p.take bs) iv)
    rw [Nat.add_right_comm (j + 1), cbcEncrypt_succ, List.take_append_of_le_length hbs,
      List.drop_append_of_le_length hbs, ih _ _ hrest, cbcEncrypt_succ enc bs (j + 1), Nat.mul_comm (j + 1) bs,
      drop_block_succ hfirst, Nat.mul_comm bs j, List.append_assoc]

end

/-- Settles O27: by induction on the blocks of the first pass. -/
theorem cbcStreamContinuesFromItsLastBlock : Obligations.CbcStreamContinuesFromItsLastBlock :=
  fun _ _ j k iv p q h hp => cbcEncrypt_append h j k iv p q hp

end Sys2Proof.Machine
end

section
/-! PROOFS. The ciphers: AES entry by entry, its key schedule, and DES and TDEA through their permutations. -/

namespace Sys2Proof.Machine

/-! ### Columns -/

/-- A string shorter than a column has none. -/
theorem columnsOf_of_lt {bs : List Byte} (h : bs.length < 4) : columnsOf bs = [] := by
  match bs, h with
  | [], _ | [_], _ | [_, _], _ | [_, _, _], _ => rfl

/-- A string is shorter than a column, or a column and the rest. -/
theorem length_lt_or_eq_cons (bs : List Byte) :
    bs.length < 4 ∨ ∃ a b c d rest, bs = a :: b :: c :: d :: rest := by
  match bs with
  | [] | [_] | [_, _] | [_, _, _] => exact .inl (by simp)
  | a :: b :: c :: d :: rest => exact .inr ⟨a, b, c, d, rest, rfl⟩

/-- Column `i` of a byte string holds its bytes 4i to 4i+3 (R161, R166). -/
theorem toBytes_columnsOf {bs : List Byte} {i : Nat} (h : 4 * i + 4 ≤ bs.length) :
    ((columnsOf bs).getD i Column.zero).toBytes = (bs.drop (4 * i)).take 4 := by
  induction i generalizing bs with
  | zero =>
    obtain hlt | ⟨a, b, c, d, rest, rfl⟩ := length_lt_or_eq_cons bs
    · omega
    · rfl
  | succ i ih =>
    obtain hlt | ⟨a, b, c, d, rest, rfl⟩ := length_lt_or_eq_cons bs
    · omega
    · simp only [List.length_cons] at h
      exact ih (by omega)

theorem columnsOf_length (bs : List Byte) : (columnsOf bs).length = bs.length / 4 := by
  induction bs using columnsOf.induct with
  | case1 a b c d rest ih =>
    simp only [columnsOf, List.length_cons, ih]
    omega
  | case2 bs hshort =>
    obtain hlt | ⟨a, b, c, d, rest, rfl⟩ := length_lt_or_eq_cons bs
    · rw [columnsOf_of_lt hlt, Nat.div_eq_of_lt hlt, List.length_nil]
    · exact absurd rfl (hshort a b c d rest)

theorem Column.row_eq_getD (c : Column) {r : Nat} (h : r < 4) : c.row r = c.toBytes.getD r 0x00#8 := by
  interval_cases r <;> rfl

theorem AesState.col_ofColumns (cs : List Column) (i : Nat) {c : Nat} (h : c < 4) :
    (AesState.ofColumns cs i).col c = cs.getD (i + c) Column.zero := by
  interval_cases c <;> rfl

/-- Entry (i mod 4, i / 4) of the state is byte `i` of what is read out (R161). -/
theorem AesState.entry_eq_getD (s : AesState) {i : Nat} (h : i < 16) :
    s.entry (i % 4) (i / 4) = s.toBytes.getD i 0x00#8 := by
  interval_cases i <;> rfl

/-- Input byte `i` is entry (i mod 4, i / 4) of the state (R161). -/
theorem AesState.entry_ofBytes {block : List Byte} (hb : block.length = 16) {i : Nat} (h : i < 16) :
    (AesState.ofBytes block).entry (i % 4) (i / 4) = block.getD i 0x00#8 := by
  rw [AesState.entry, AesState.ofBytes, AesState.col_ofColumns _ _ (by omega), Column.row_eq_getD _ (by omega),
    Nat.zero_add, toBytes_columnsOf (by omega)]
  simp [List.getD_eq_getElem?_getD, List.getElem?_drop, Nat.mod_lt, Nat.div_add_mod]

theorem AesState.toBytes_ofBytes {block : List Byte} (hb : block.length = 16) :
    (AesState.ofBytes block).toBytes = block := by
  refine List.ext_getElem (by simp [hb]) fun i hi hi' => ?_
  have hbyte := (AesState.entry_eq_getD (AesState.ofBytes block) hi).symm.trans (AesState.entry_ofBytes hb hi)
  rwa [List.getD_eq_getElem _ _ hi, List.getD_eq_getElem _ _ hi'] at hbyte

/-- Settles O29: the layout by the two lemmas above, the round operations entry by entry. -/
theorem aesStateLayoutAndRoundOperations : Obligations.AesStateLayoutAndRoundOperations := by
  refine ⟨fun block hb => ⟨fun i hi => AesState.entry_ofBytes hb hi, AesState.toBytes_ofBytes hb⟩,
    fun s w rnd c hc => ⟨fun r hr => ?_, ?_⟩⟩
  · interval_cases c <;> interval_cases r <;> exact ⟨rfl, rfl, rfl⟩
  · interval_cases c <;> exact ⟨rfl, rfl, rfl, rfl⟩

/-! ### The AES key schedule -/

/-- Word `i` of a schedule kept newest first. -/
def wordOf (ws : List Column) (i : Nat) : Column := ws.reverse.getD i Column.zero

theorem getD_eq_wordOf {ws : List Column} {k : Nat} (h : k < ws.length) :
    ws.getD k Column.zero = wordOf ws (ws.length - 1 - k) := by
  rw [wordOf, List.getD_eq_getElem _ _ h, List.getD_eq_getElem _ _ (by simp; omega), List.getElem_reverse]
  congr 1
  omega

theorem wordOf_cons_of_lt {x : Column} {ws : List Column} {i : Nat} (h : i < ws.length) :
    wordOf (x :: ws) i = wordOf ws i := by
  rw [wordOf, List.reverse_cons, List.getD_append _ _ _ _ (by simpa using h), wordOf]

theorem wordOf_cons_length (x : Column) (ws : List Column) : wordOf (x :: ws) ws.length = x := by
  simp [wordOf]

/-- The word the recurrence of R166 gives from the words before it. -/
def recurrenceWord (nk : Nat) (w : Nat → Column) (i : Nat) : Column :=
  (w (i - nk)).xor
    (if i % nk = 0 then ((w (i - 1)).rot.sub).xor ⟨roundConstant (i / nk), 0x00#8, 0x00#8, 0x00#8⟩
    else w (i - 1))

/-- The words from `nk` on satisfy the recurrence of R166. -/
def IsSchedule (nk : Nat) (ws : List Column) : Prop :=
  ∀ i, nk ≤ i → i < ws.length → wordOf ws i = recurrenceWord nk (wordOf ws) i

section
variable {nk : Nat} {ws : List Column}

/-- A word put before the newest does not reach the recurrence of the words up to it. -/
theorem recurrenceWord_cons (x : Column) {i : Nat} (hnk : 0 < nk) (hlo : nk ≤ i) (hhi : i ≤ ws.length) :
    recurrenceWord nk (wordOf (x :: ws)) i = recurrenceWord nk (wordOf ws) i := by
  rw [recurrenceWord, wordOf_cons_of_lt (by omega), wordOf_cons_of_lt (by omega), recurrenceWord]

theorem scheduleWord_eq_recurrenceWord (hnk : 0 < nk) (hlen : nk ≤ ws.length) :
    scheduleWord nk ws.length ws = recurrenceWord nk (wordOf ws) ws.length := by
  have hback : ws.length - 1 - (nk - 1) = ws.length - nk := by omega
  simp only [scheduleWord, recurrenceWord, getD_eq_wordOf (show 0 < ws.length by omega),
    getD_eq_wordOf (show nk - 1 < ws.length by omega), hback, Nat.sub_zero]

/-- The next word keeps the recurrence. -/
theorem IsSchedule.cons (h : IsSchedule nk ws) (hnk : 0 < nk) (hlen : nk ≤ ws.length) :
    IsSchedule nk (scheduleWord nk ws.length ws :: ws) := by
  intro i hlo hhi
  rw [List.length_cons, Nat.lt_succ_iff] at hhi
  rw [recurrenceWord_cons _ hnk hlo hhi]
  obtain hlt | rfl := Nat.lt_or_eq_of_le hhi
  · rw [wordOf_cons_of_lt hlt, h i hlo hlt]
  · rw [wordOf_cons_length, scheduleWord_eq_recurrenceWord hnk hlen]

/-- Extending a schedule adds words that satisfy the recurrence and keeps the words it had (R166). -/
theorem extendSchedule_isSchedule (n : Nat) (h : IsSchedule nk ws) (hnk : 0 < nk) (hlen : nk ≤ ws.length) :
    (extendSchedule nk n ws.length ws).length = n + ws.length ∧
      IsSchedule nk (extendSchedule nk n ws.length ws) ∧
      ∀ i < ws.length, wordOf (extendSchedule nk n ws.length ws) i = wordOf ws i := by
  induction n generalizing ws with
  | zero => exact ⟨(Nat.zero_add _).symm, h, fun _ _ => rfl⟩
  | succ n ih =>
    obtain ⟨hlength, hsched, hold⟩ := ih (h.cons hnk hlen) (Nat.le_succ_of_le hlen)
    rw [List.length_cons] at hlength
    refine ⟨hlength.trans (by omega), hsched, fun i hi => (hold i (Nat.lt_succ_of_lt hi)).trans ?_⟩
    exact wordOf_cons_of_lt hi

end

/-- Settles O30: the schedule is the key's words extended by the recurrence. -/
theorem keyScheduleRecurrence : Obligations.KeyScheduleRecurrence := by
  intro key hkey nk w
  have hnk : 0 < nk ∧ 4 * nk = key.length := by omega
  have hwords : (columnsOf key).reverse.length = nk := by rw [List.length_reverse, columnsOf_length]
  have hinit : IsSchedule nk (columnsOf key).reverse := fun i hlo hhi => absurd hlo (by omega)
  obtain ⟨hlength, hsched, hold⟩ := extendSchedule_isSchedule (4 * (nk + 6 + 1) - nk) hinit hnk.1 hwords.ge
  rw [hwords] at hlength hsched hold
  have hlength' : (extendSchedule nk (4 * (nk + 6 + 1) - nk) nk (columnsOf key).reverse).length =
      4 * (nk + 6 + 1) := by omega
  refine ⟨(List.length_reverse).trans hlength', fun i hi => ?_, fun i hlo hhi => hsched i hlo (by omega)⟩
  have hword : w i = (columnsOf key).getD i Column.zero := by
    refine (hold i hi).trans ?_
    rw [wordOf, List.reverse_reverse]
  rw [hword, toBytes_columnsOf (by omega)]

/-! ### Permutations of bits -/

/-- Bits read as a number, the first the most significant. -/
def bitsToNat (bits : List Bool) : Nat := bits.foldl (fun acc b => 2 * acc + b.toNat) 0

theorem bitsToNat_append_singleton (bits : List Bool) (b : Bool) :
    bitsToNat (bits ++ [b]) = 2 * bitsToNat bits + b.toNat := by
  simp [bitsToNat]

/-- Bit `m` of the number is bit `m` from the end. -/
theorem testBit_bitsToNat (bits : List Bool) (m : Nat) :
    (bitsToNat bits).testBit m = bits.reverse.getD m false := by
  induction bits using List.reverseRecOn generalizing m with
  | nil => simp [bitsToNat]
  | append_singleton bits b ih =>
    have hb : b.toNat < 2 := b.toNat_lt
    rw [bitsToNat_append_singleton, List.reverse_append]
    cases m with
    | zero => cases b <;> simp
    | succ m =>
      rw [Nat.testBit_succ, show (2 * bitsToNat bits + b.toNat) / 2 = bitsToNat bits by omega, ih]
      simp

theorem permute_eq_bitsToNat (n k : Nat) (table : List Nat) (x : BitVec n) :
    permute n k table x = BitVec.ofNat k (bitsToNat (table.map fun j => x.getMsbD (j - 1))) := by
  rw [permute, bitsToNat, List.foldl_map]

/-- Output bit `i` of a permutation table is the input bit that its entry names (R171). -/
theorem getMsbD_permute {n k : Nat} {table : List Nat} (x : BitVec n) (hlen : table.length = k) {i : Nat}
    (hi : i < k) : (permute n k table x).getMsbD i = x.getMsbD (table.getD i 0 - 1) := by
  subst hlen
  rw [BitVec.getMsbD_eq_getLsbD, permute_eq_bitsToNat, BitVec.getLsbD_ofNat, testBit_bitsToNat]
  have hback : table.length - 1 - (table.length - 1 - i) = i := by omega
  have hlt : table.length - 1 - i < table.length := by omega
  simp [hi, hlt, hback, List.getElem_reverse]

/-- A permutation depends only on the bits that its table names. -/
theorem permute_congr {n : Nat} (k : Nat) {table : List Nat} {x y : BitVec n}
    (h : ∀ j ∈ table, x.getMsbD (j - 1) = y.getMsbD (j - 1)) : permute n k table x = permute n k table y := by
  rw [permute_eq_bitsToNat, permute_eq_bitsToNat, List.map_congr_left h]

/-- The second table undoes the first: each of its entries names the place the first sends that bit to. -/
def UndoneBy (n : Nat) (p q : List Nat) : Prop :=
  ∀ i < n, q.getD i 0 - 1 < n ∧ p.getD (q.getD i 0 - 1) 0 - 1 = i

theorem permute_permute {n : Nat} {p q : List Nat} (hp : p.length = n) (hq : q.length = n)
    (h : UndoneBy n p q) (x : BitVec n) : permute n n q (permute n n p x) = x := by
  apply BitVec.eq_of_getMsbD_eq
  intro i hi
  obtain ⟨hlt, hundo⟩ := h i hi
  rw [getMsbD_permute _ hq hi, getMsbD_permute _ hp hlt, hundo]

theorem ipTable_undoneBy_fpTable : UndoneBy 64 ipTable fpTable := by
  unfold UndoneBy
  decide

theorem fpTable_undoneBy_ipTable : UndoneBy 64 fpTable ipTable := by
  unfold UndoneBy
  decide

theorem permute_fp_permute_ip (x : BitVec 64) : permute 64 64 fpTable (permute 64 64 ipTable x) = x :=
  permute_permute (by decide) (by decide) ipTable_undoneBy_fpTable x

theorem permute_ip_permute_fp (x : BitVec 64) : permute 64 64 ipTable (permute 64 64 fpTable x) = x :=
  permute_permute (by decide) (by decide) fpTable_undoneBy_ipTable x

/-- Settles O32: the two tables undo each other, entry by entry. -/
theorem finalPermutationInvertsTheInitial : Obligations.FinalPermutationInvertsTheInitial := fun x =>
  ⟨permute_fp_permute_ip x, permute_ip_permute_fp x⟩

/-! ### DES -/

/-- One round on the two halves (R176). -/
def desRound (lr : BitVec 32 × BitVec 32) (k : BitVec 48) : BitVec 32 × BitVec 32 :=
  (lr.2, lr.1 ^^^ roundFunction lr.2 k)

/-- The rounds are one after the other, with the halves swapped at the end (R176). -/
theorem desRounds_eq_foldl (ks : List (BitVec 48)) (l r : BitVec 32) :
    desRounds ks l r = (ks.foldl desRound (l, r)).2 ++ (ks.foldl desRound (l, r)).1 := by
  induction ks generalizing l r with
  | nil => rfl
  | cons k ks ih => exact ih r (l ^^^ roundFunction r k)

/-- A round on the swapped halves of a round's result gives back its input, swapped. -/
theorem desRound_swap_desRound (lr : BitVec 32 × BitVec 32) (k : BitVec 48) :
    desRound (desRound lr k).swap k = lr.swap := by
  simp [desRound, Prod.swap]

/-- The rounds in reverse order on the swapped halves give back the input, swapped (R177). -/
theorem foldl_desRound_reverse (ks : List (BitVec 48)) (lr : BitVec 32 × BitVec 32) :
    ks.reverse.foldl desRound (ks.foldl desRound lr).swap = lr.swap := by
  induction ks generalizing lr with
  | nil => rfl
  | cons k ks ih =>
    rw [List.foldl_cons, List.reverse_cons, List.foldl_append, ih, List.foldl_cons, List.foldl_nil,
      desRound_swap_desRound]

/-- The two halves of a block, the high one first (R176). -/
def halves (v : BitVec 64) : BitVec 32 × BitVec 32 := (v.extractLsb' 32 32, v.extractLsb' 0 32)

theorem halves_append (a b : BitVec 32) : halves (a ++ b) = (a, b) := by
  have hhigh : (a ++ b).extractLsb' 32 32 = a := by
    ext i hi
    rw [BitVec.getElem_extractLsb', BitVec.getLsbD_append]
    simp [hi]
  have hlow : (a ++ b).extractLsb' 0 32 = b := by
    ext i hi
    rw [BitVec.getElem_extractLsb', BitVec.getLsbD_append]
    simp [hi]
  exact Prod.ext hhigh hlow

theorem append_halves (v : BitVec 64) : (halves v).1 ++ (halves v).2 = v := by
  apply BitVec.eq_of_getLsbD_eq
  intro i hi
  simp only [halves, BitVec.getLsbD_append, BitVec.getLsbD_extractLsb']
  grind

/-- A block of DES is its halves through the rounds, swapped, between IP and FP (R176). -/
theorem permute_ip_desBlock (ks : List (BitVec 48)) (x : BitVec 64) :
    halves (permute 64 64 ipTable (desBlock ks x)) =
      (ks.foldl desRound (halves (permute 64 64 ipTable x))).swap := by
  simp only [desBlock]
  rw [permute_ip_permute_fp, desRounds_eq_foldl, halves_append]
  rfl

theorem halves_injective {v w : BitVec 64} (h : halves v = halves w) : v = w := by
  rw [← append_halves v, h, append_halves]

/-- A block through the rounds and then through them in reverse order is as it was. -/
theorem desBlock_reverse_desBlock (ks : List (BitVec 48)) (x : BitVec 64) :
    desBlock ks.reverse (desBlock ks x) = x := by
  have hip : permute 64 64 ipTable (desBlock ks.reverse (desBlock ks x)) = permute 64 64 ipTable x := by
    apply halves_injective
    rw [permute_ip_desBlock, permute_ip_desBlock, foldl_desRound_reverse, Prod.swap_swap]
  have h := congrArg (permute 64 64 fpTable) hip
  rwa [permute_fp_permute_ip, permute_fp_permute_ip] at h

/-- Settles O33: decryption is the same rounds in reverse order. -/
theorem desDecryptionInvertsEncryption : Obligations.DesDecryptionInvertsEncryption := by
  refine fun k x => ⟨desBlock_reverse_desBlock _ x, ?_⟩
  have h := desBlock_reverse_desBlock (desSubkeys k).reverse x
  rwa [List.reverse_reverse] at h

/-- Settles O35: the schedule starts with PC1, which names no parity bit. -/
theorem keyParityBitsAreIgnored : Obligations.KeyParityBitsAreIgnored := by
  intro k k' x h
  have htable : ∀ j ∈ pc1Table, 1 ≤ j ∧ j ≤ 64 ∧ j % 8 ≠ 0 := by decide
  have hpc1 : permute 64 56 pc1Table k = permute 64 56 pc1Table k' := by
    refine permute_congr 56 fun j hj => ?_
    obtain ⟨hlo, hhi, hparity⟩ := htable j hj
    exact h j hlo hhi hparity
  have hkeys : desSubkeys k = desSubkeys k' := by simp only [desSubkeys, hpc1]
  rw [desEnc, desEnc, desDec, desDec, hkeys]
  exact ⟨rfl, rfl⟩

/-! ### TDEA -/

/-- TDEA uses the three parts of its key in order (R170, R180). -/
theorem tdeaEnc_append {k1 k2 k3 : List Byte} (h1 : k1.length = 8) (h2 : k2.length = 8) (h3 : k3.length = 8)
    (x : List Byte) :
    tdeaEnc (k1 ++ k2 ++ k3) x =
      desBytesOf (desEnc (desBlockOf k3) (desDec (desBlockOf k2) (desEnc (desBlockOf k1) (desBlockOf x)))) := by
  have hpart1 : (k1 ++ k2 ++ k3).take 8 = k1 := by rw [List.append_assoc, List.take_left' h1]
  have hpart2 : ((k1 ++ k2 ++ k3).drop 8).take 8 = k2 := by
    rw [List.append_assoc, List.drop_left' h1, List.take_left' h2]
  have hpart3 : ((k1 ++ k2 ++ k3).drop 16).take 8 = k3 := by
    rw [List.drop_left' (by simp [h1, h2]), ← h3, List.take_length]
  simp only [tdeaEnc, hpart1, hpart2, hpart3]

/-- Settles O34: the order of the key parts, and DES_Dec undoing DES_Enc where they are equal. -/
theorem tdeaAppliesItsKeyPartsInOrder : Obligations.TdeaAppliesItsKeyPartsInOrder := by
  intro k1 k2 k3 x h1 h2 h3 _
  refine ⟨tdeaEnc_append h1 h2 h3 x, ?_, tdeaEnc_append h1 h2 h1 x⟩
  rw [tdeaEnc_append h1 h1 h1, (desDecryptionInvertsEncryption _ _).1]

/-! ### The S-box and the check values -/

/-- The affine map of R162 undone: for an S-box value, the inverse it was made from. -/
def sboxInverse (a : Byte) : Byte :=
  (sbox a).rotateLeft 1 ^^^ (sbox a).rotateLeft 3 ^^^ (sbox a).rotateLeft 6 ^^^ 0x05#8

/-- Settles O28: `sboxInverse` gives the inverse of each of the 256 bytes. -/
theorem sboxIsTheAffineMapOfTheInverse : Obligations.SboxIsTheAffineMapOfTheInverse := by
  have all : ∀ a : Byte, (a = 0x00#8 → sboxInverse a = 0x00#8) ∧
      (a ≠ 0x00#8 → gfMul a (sboxInverse a) = 0x01#8) ∧
      sbox a = sboxInverse a ^^^ (sboxInverse a).rotateLeft 1 ^^^ (sboxInverse a).rotateLeft 2 ^^^
        (sboxInverse a).rotateLeft 3 ^^^ (sboxInverse a).rotateLeft 4 ^^^ 0x63#8 := by
    decide +kernel
  exact fun a => ⟨sboxInverse a, all a⟩

theorem aesEnc_checkValue_128 :
    aesEnc (bytesBe 0x000102030405060708090A0B0C0D0E0F 16) (bytesBe 0x00112233445566778899AABBCCDDEEFF 16) =
      bytesBe 0x69C4E0D86A7B0430D8CDB78070B4C55A 16 := by decide +kernel

theorem aesEnc_checkValue_192 :
    aesEnc (bytesBe 0x000102030405060708090A0B0C0D0E0F1011121314151617 24)
        (bytesBe 0x00112233445566778899AABBCCDDEEFF 16) =
      bytesBe 0xDDA97CA4864CDFE06EAF70A0EC0D7191 16 := by decide +kernel

theorem desEnc_checkValue : desEnc 0x133457799BBCDFF1#64 0x0123456789ABCDEF#64 = 0x85E813540F0AB405#64 := by
  decide +kernel

/-- Settles O31: each value is computed. -/
theorem cipherCheckValues : Obligations.CipherCheckValues :=
  ⟨aesEnc_checkValue_128, aesEnc_checkValue_192, desEnc_checkValue⟩

end Sys2Proof.Machine
end

section
/-! PROOFS. What each command stores when its checks pass, and RANGE. -/

namespace Sys2Proof.Machine

/-! ### A stored result -/

/-- A part of the bytes at `a` is the bytes from further up. -/
theorem Memory.take_drop_bytes (m : Memory) {a n k l : Nat} (h : k + l ≤ n) :
    ((m.bytes a n).drop k).take l = m.bytes (a + k) l := by
  refine List.ext_getElem (by simp; omega) fun i hi hi' => ?_
  rw [List.getElem_take, List.getElem_drop, Memory.bytes_getElem, Memory.bytes_getElem, Nat.add_assoc]

section
variable {s : State} {dst n : Nat} {r : Result}

/-- A stored result completes the command as R233 says and leaves every byte outside it. -/
theorem completedFrom_stores (hwf : s.wmem.wf = true) (hn : r.bytes.length = n) (hfits : dst + n ≤ 256) :
    completedFrom s ((Completion.stores dst r).apply s) dst n (r.carry.getD s.status.c) := by
  subst hn
  exact ⟨rfl, fun _ hout => Memory.read_writeBytes_outside hfits hwf hout⟩

/-- Byte `i` of the result is stored at DST + i. -/
theorem read_stores (hwf : s.wmem.wf = true) (hn : r.bytes.length = n) (hfits : dst + n ≤ 256) {i : Nat}
    (hi : i < n) : ((Completion.stores dst r).apply s).wmem.read (dst + i) = r.bytes.getD i 0x00#8 := by
  subst hn
  exact Memory.read_writeBytes_inside hfits hwf hi

/-- The result read back. -/
theorem bytes_stores (hwf : s.wmem.wf = true) (hn : r.bytes.length = n) (hfits : dst + n ≤ 256) :
    ((Completion.stores dst r).apply s).wmem.bytes dst n = r.bytes := by
  subst hn
  exact Memory.bytes_writeBytes hfits hwf

/-- A part of the result read back. -/
theorem bytes_stores_part (hwf : s.wmem.wf = true) (hn : r.bytes.length = n) (hfits : dst + n ≤ 256) {k l : Nat}
    (hkl : k + l ≤ n) :
    ((Completion.stores dst r).apply s).wmem.bytes (dst + k) l = (r.bytes.drop k).take l := by
  rw [← Memory.take_drop_bytes _ hkl, bytes_stores hwf hn hfits]

theorem wf_stores (hwf : s.wmem.wf = true) (hn : r.bytes.length = n) (hfits : dst + n ≤ 256) :
    ((Completion.stores dst r).apply s).wmem.wf = true := by
  subst hn
  exact Memory.wf_writeBytes hfits hwf

end

/-! ### The byte primitives -/

theorem exec_xor {s : State} {dst srca srcb len : Nat} (ha : srca + len ≤ 256) (hb : srcb + len ≤ 256)
    (hd : dst + len ≤ 256) :
    exec (.xor dst srca srcb len) s =
      .next ((Completion.stores dst ⟨xorBytes (s.wmem.bytes srca len) (s.wmem.bytes srcb len), none⟩).apply s) := by
  have hchecks : firstError [rangeError (xorOperands dst srca srcb len)] = none := by
    simp only [firstError_eq_none, List.forall_mem_cons, rangeError_eq_none, xorOperands]
    exact ⟨⟨ha, hb, hd, nofun⟩, nofun⟩
  exact runCommand_succeeds hchecks (xorCompute_ok ha hb) (by simpa using hd)

/-- A command on one source operand whose result has `n` bytes stores it. -/
theorem runCommand_unary {f : List Byte → Result} {s : State} {dst srca len n : Nat} (ha : srca + len ≤ 256)
    (hd : dst + n ≤ 256) (hn : (f (s.wmem.bytes srca len)).bytes.length = n) :
    runCommand [rangeError [⟨srca, len⟩, ⟨dst, n⟩]] dst (unaryCompute f srca len) s =
      .next ((Completion.stores dst (f (s.wmem.bytes srca len))).apply s) := by
  have hchecks : firstError [rangeError [⟨srca, len⟩, ⟨dst, n⟩]] = none := by
    simp only [firstError_eq_none, List.forall_mem_cons, rangeError_eq_none]
    exact ⟨⟨ha, hd, nofun⟩, nofun⟩
  exact runCommand_succeeds hchecks (unaryCompute_ok ha) (hn ▸ hd)

section
variable {s : State} {dst srca len : Nat}

theorem exec_shl1 (ha : srca + len ≤ 256) (hd : dst + len ≤ 256) :
    exec (.shl1 dst srca len) s =
      .next ((Completion.stores dst
        ⟨shl1Bytes (s.wmem.bytes srca len), some (droppedBit (s.wmem.bytes srca len))⟩).apply s) :=
  runCommand_unary ha hd (by simp)

theorem exec_pad {m : Nat} (ha : srca + len ≤ 256) (hd : dst + padLength len m ≤ 256) :
    exec (.pad dst srca len m) s =
      .next ((Completion.stores dst ⟨padBytes (s.wmem.bytes srca len) m, none⟩).apply s) :=
  runCommand_unary ha hd (by simp)

theorem exec_rev (ha : srca + len ≤ 256) (hd : dst + len ≤ 256) :
    exec (.rev dst srca len) s =
      .next ((Completion.stores dst ⟨(s.wmem.bytes srca len).reverse, none⟩).apply s) :=
  runCommand_unary ha hd (by simp)

theorem exec_copy (ha : srca + len ≤ 256) (hd : dst + len ≤ 256) :
    exec (.copy dst srca len) s = .next ((Completion.stores dst ⟨s.wmem.bytes srca len, none⟩).apply s) :=
  runCommand_unary ha hd (by simp)

end

/-- Settles O8: the stored string is `xorBytes`, read byte by byte. -/
theorem xorStoresTheBytewiseXor : Obligations.XorStoresTheBytewiseXor := by
  intro s dst srca srcb len hwf ha hb hd
  have hlen : (xorBytes (s.wmem.bytes srca len) (s.wmem.bytes srcb len)).length = len := by simp
  refine ⟨_, exec_xor ha hb hd, completedFrom_stores hwf hlen hd, fun i hi => ?_⟩
  rw [read_stores hwf hlen hd hi, getD_xorBytes (by simp), Memory.bytes_getD _ _ _ _ hi,
    Memory.bytes_getD _ _ _ _ hi]

/-- Settles O9: the stored string is `shl1Bytes`, whose number `intBe_shl1Bytes` gives. -/
theorem shl1StoresTheShiftAndTheCarry : Obligations.Shl1StoresTheShiftAndTheCarry := by
  intro s dst srca len hwf ha hd
  have hlen : (shl1Bytes (s.wmem.bytes srca len)).length = len := by simp
  refine ⟨_, exec_shl1 ha hd, ?_, ?_⟩
  · rw [← droppedBit_bytes]
    exact completedFrom_stores hwf hlen hd
  · rw [bytes_stores hwf hlen hd, intBe_shl1Bytes, Memory.bytes_length]

/-- The operand's bytes come first in the padded string. -/
theorem getD_padBytes_of_lt {a : List Byte} {i : Nat} (m : Nat) (hi : i < a.length) :
    (padBytes a m).getD i 0x00#8 = a.getD i 0x00#8 := by
  rw [padBytes, List.getD_append _ _ _ _ hi]

/-- The padding is zeros. -/
theorem getD_padBytes_of_ge {a : List Byte} {i : Nat} (m : Nat) (hi : a.length ≤ i) :
    (padBytes a m).getD i 0x00#8 = 0x00#8 := by
  rw [padBytes, List.getD_append_right _ _ _ _ hi, zeros, List.getD_eq_getElem?_getD, List.getElem?_replicate]
  split <;> rfl

/-- Settles O10: the stored string is `padBytes`, the operand and then zeros. -/
theorem padStoresTheOperandAndZeros : Obligations.PadStoresTheOperandAndZeros := by
  intro s dst srca len m hwf ha hd
  have hlen : (padBytes (s.wmem.bytes srca len) m).length = padLength len m := by simp
  refine ⟨_, exec_pad ha hd, completedFrom_stores hwf hlen hd, fun i hi => ?_, fun i hlo hhi => ?_⟩
  · rw [read_stores hwf hlen hd (hi.trans_le (padLength_ge len m)), getD_padBytes_of_lt m (by simpa using hi),
      Memory.bytes_getD _ _ _ _ hi]
  · rw [read_stores hwf hlen hd hhi, getD_padBytes_of_ge m (by simpa using hlo)]

/-- The bytes in reverse order, one by one (R145). -/
theorem getD_reverse_bytes (m : Memory) (a : Nat) {n i : Nat} (hi : i < n) :
    (m.bytes a n).reverse.getD i 0x00#8 = m.read (a + (n - 1 - i)) := by
  rw [List.getD_eq_getElem _ _ (by simpa using hi), List.getElem_reverse, Memory.bytes_getElem, Memory.bytes_length]

theorem length_reverse_bytes (m : Memory) (a n : Nat) : (m.bytes a n).reverse.length = n := by simp

/-- Settles O11: the stored string is the operand's bytes reversed. -/
theorem revStoresTheBytesReversed : Obligations.RevStoresTheBytesReversed := by
  intro s dst srca len hwf ha hd
  have hlen := length_reverse_bytes s.wmem srca len
  refine ⟨_, exec_rev ha hd, completedFrom_stores hwf hlen hd, fun i hi => ?_⟩
  rw [read_stores hwf hlen hd hi, getD_reverse_bytes _ _ hi]

/-- Settles O12: the stored string is the operand's bytes. -/
theorem copyStoresTheSourceBytes : Obligations.CopyStoresTheSourceBytes := by
  intro s dst srca len hwf ha hd
  have hlen := Memory.bytes_length s.wmem srca len
  refine ⟨_, exec_copy ha hd, completedFrom_stores hwf hlen hd, fun i hi => ?_⟩
  rw [read_stores hwf hlen hd hi, Memory.bytes_getD _ _ _ _ hi]

/-- Settles O25: the second rev reads the first one's result and reverses it back; in place, every byte of the
canonical WMEM is as before. -/
theorem revTwiceRestoresTheBytes : Obligations.RevTwiceRestoresTheBytes := by
  intro s a b c len hwf ha hb hc
  obtain ⟨t, ht⟩ : ∃ t, t = (Completion.stores b ⟨(s.wmem.bytes a len).reverse, none⟩).apply s := ⟨_, rfl⟩
  obtain ⟨u, hu⟩ : ∃ u, u = (Completion.stores c ⟨(t.wmem.bytes b len).reverse, none⟩).apply t := ⟨_, rfl⟩
  have hslen := length_reverse_bytes s.wmem a len
  have htlen := length_reverse_bytes t.wmem b len
  have htwf : t.wmem.wf = true := ht ▸ wf_stores hwf hslen hb
  have hback : (t.wmem.bytes b len).reverse = s.wmem.bytes a len := by
    rw [ht, bytes_stores hwf hslen hb, List.reverse_reverse]
  have hinside : ∀ i < len, u.wmem.read (c + i) = s.wmem.read (a + i) := fun i hi => by
    rw [hu, read_stores htwf htlen hc hi]
    exact (congrArg (·.getD i 0x00#8) hback).trans (Memory.bytes_getD _ _ _ _ hi)
  refine ⟨t, u, ht ▸ exec_rev ha hb, hu ▸ exec_rev hb hc, hinside, ?_⟩
  rintro rfl rfl
  refine Memory.eq_of_read_eq (hu ▸ wf_stores htwf htlen hc) hwf fun x => ?_
  by_cases hx : a ≤ x ∧ x < a + len
  · have hxi := hinside (x - a) (by omega)
    rwa [Nat.add_sub_cancel' hx.1] at hxi
  · calc u.wmem.read x
        = t.wmem.read x := by rw [hu]; exact (completedFrom_stores htwf htlen hc).2 x hx
      _ = s.wmem.read x := by rw [ht]; exact (completedFrom_stores hwf hslen hb).2 x hx

/-! ### The CBC commands -/

section
variable {enc : List Byte → List Byte → List Byte} {bs : Nat} {key : Option CmdError} {s : State}
  {dst srca len keyp keylen ivp : Nat}

theorem runCommand_cbc (henc : ∀ k x, (enc k x).length = bs) (hkey : key = none) (hlen : len ≠ 0)
    (hblocks : len % bs = 0) (ha : srca + len ≤ 256) (hd : dst + len ≤ 256) (hk : keyp + keylen ≤ 256)
    (hi : ivp + bs ≤ 256) :
    runCommand [key, blockError bs len, rangeError (cbcOperands bs dst srca len keyp keylen ivp)] dst
        (cbcCompute enc bs srca len keyp keylen ivp) s =
      .next ((Completion.stores dst ⟨cbcEncrypt (enc (s.wmem.bytes keyp keylen)) bs (len / bs)
        (s.wmem.bytes ivp bs) (s.wmem.bytes srca len), none⟩).apply s) := by
  refine runCommand_succeeds ?_ (cbcCompute_ok hk hi ha) ?_
  · simp only [firstError_eq_none, List.forall_mem_cons, rangeError_eq_none, blockError_eq_none, cbcOperands]
    exact ⟨hkey, ⟨hlen, hblocks⟩, ⟨ha, hd, hk, hi, nofun⟩, nofun⟩
  · rwa [cbcEncrypt_length (henc _), Nat.div_mul_cancel (Nat.dvd_of_mod_eq_zero hblocks)]

/-- A CBC command completes, and its result is chained block by block (R150). -/
theorem cbc_stores_chained_blocks (henc : ∀ k x, (enc k x).length = bs) (hwf : s.wmem.wf = true)
    (hkey : key = none) (hlen : len ≠ 0) (hblocks : len % bs = 0) (ha : srca + len ≤ 256)
    (hd : dst + len ≤ 256) (hk : keyp + keylen ≤ 256) (hi : ivp + bs ≤ 256) :
    ∃ t, runCommand [key, blockError bs len, rangeError (cbcOperands bs dst srca len keyp keylen ivp)] dst
        (cbcCompute enc bs srca len keyp keylen ivp) s = .next t ∧ completedFrom s t dst len s.status.c ∧
      ∀ j < len / bs,
        t.wmem.bytes (dst + bs * j) bs =
          enc (s.wmem.bytes keyp keylen)
            (xorBytes (s.wmem.bytes (srca + bs * j) bs)
              (if j = 0 then s.wmem.bytes ivp bs else t.wmem.bytes (dst + bs * (j - 1)) bs)) := by
  have hmul : len / bs * bs = len := Nat.div_mul_cancel (Nat.dvd_of_mod_eq_zero hblocks)
  have hclen := (cbcEncrypt_length (henc (s.wmem.bytes keyp keylen)) (len / bs) (s.wmem.bytes ivp bs)
    (s.wmem.bytes srca len)).trans hmul
  refine ⟨_, runCommand_cbc henc hkey hlen hblocks ha hd hk hi, completedFrom_stores hwf hclen hd, fun j hj => ?_⟩
  have hinside : ∀ i < len / bs, bs * i + bs ≤ len := fun i hi' => by
    rw [← Nat.mul_succ, Nat.mul_comm, ← hmul]
    exact Nat.mul_le_mul_right bs hi'
  rw [bytes_stores_part hwf hclen hd (hinside j hj), bytes_stores_part hwf hclen hd (hinside (j - 1) (by omega)),
    ← Memory.take_drop_bytes _ (hinside j hj)]
  exact cbcEncrypt_block (henc _) hj _ _

end

/-- Settles O13: cbc.aes is the CBC command of AES. -/
theorem cbcAesStoresTheChainedBlocks : Obligations.CbcAesStoresTheChainedBlocks :=
  fun _ _ _ _ _ _ _ hwf hkey hlen hblocks ha hd hk hi =>
    cbc_stores_chained_blocks aesEnc_length hwf (aesKeyError_eq_none.2 hkey) hlen hblocks ha hd hk hi

/-- Settles O14: cbc.tdea is the CBC command of TDEA. -/
theorem cbcTdeaStoresTheChainedBlocks : Obligations.CbcTdeaStoresTheChainedBlocks :=
  fun _ _ _ _ _ _ _ hwf hkey hlen hblocks ha hd hk hi =>
    cbc_stores_chained_blocks tdeaEnc_length hwf (tdeaKeyError_eq_none.2 hkey) hlen hblocks ha hd hk hi

/-! ### The CMAC subkeys -/

/-- Combining the lowest byte of a number combines the byte (R201). -/
theorem mul_add_xor_byte (q : Nat) (b c : Byte) :
    256 * q + (b ^^^ c).toNat = (256 * q + b.toNat) ^^^ c.toNat := by
  apply Nat.eq_of_testBit_eq
  intro i
  rw [Nat.testBit_xor, Nat.testBit_two_pow_mul_add (i := 8) q (b ^^^ c).isLt i,
    Nat.testBit_two_pow_mul_add (i := 8) q b.isLt i, BitVec.toNat_xor, Nat.testBit_xor]
  split
  · rfl
  · next hge =>
    have hc : c.toNat.testBit i = false :=
      Nat.testBit_lt_two_pow (c.isLt.trans_le (Nat.pow_le_pow_right (by decide) (Nat.le_of_not_lt hge)))
    rw [hc, Bool.xor_false]

/-- Combining a byte into the last byte of a string combines it into the string's number (R201). -/
theorem intBe_set_last {bs : List Byte} {n : Nat} (h : bs.length = n + 1) (c : Byte) :
    intBe (bs.set n (bs.getD n 0x00#8 ^^^ c)) = intBe bs ^^^ c.toNat := by
  obtain rfl | ⟨init, b, rfl⟩ := List.eq_nil_or_concat' bs
  · simp at h
  obtain rfl : init.length = n := by simpa using h
  have hset : (init ++ [b]).set init.length ((init ++ [b]).getD init.length 0x00#8 ^^^ c) = init ++ [b ^^^ c] := by
    simp
  rw [hset, intBe_append_singleton, intBe_append_singleton, mul_add_xor_byte]

/-- The dropped bit of a block says whether its number reaches 2^127 (R130). -/
theorem droppedBit_eq_true_iff {x : List Byte} (h : x.length = 16) : droppedBit x = true ↔ 2 ^ 127 ≤ intBe x := by
  have hlt := intBe_lt x
  have hbit := toNat_droppedBit (a := x) (by rintro rfl; simp at h)
  rw [h] at hlt hbit
  cases hd : droppedBit x <;> simp [hd] at hbit ⊢ <;> omega

/-- Doubling in the field of CMAC, on the numbers of the blocks (R201). -/
theorem intBe_doubled {x : List Byte} (h : x.length = 16) :
    intBe (doubled x) = (2 * intBe x % 2 ^ 128) ^^^ (if 2 ^ 127 ≤ intBe x then 0x87 else 0) := by
  have hshift : intBe (shl1Bytes x) = 2 * intBe x % 2 ^ 128 := by rw [intBe_shl1Bytes, h]
  rw [← hshift, ← if_congr (droppedBit_eq_true_iff h) rfl rfl]
  simp only [doubled]
  split
  · exact intBe_set_last (by rw [shl1Bytes_length, h]) Config.cmacRb
  · rw [Nat.xor_zero]

theorem exec_cmacSk {s : State} {dst keyp keylen : Nat} (hkey : keylen = 16 ∨ keylen = 24)
    (hk : keyp + keylen ≤ 256) (hd : dst + 32 ≤ 256) :
    exec (.cmacSk dst keyp keylen) s =
      .next ((Completion.stores dst ⟨cmacSubkeys (s.wmem.bytes keyp keylen), none⟩).apply s) := by
  have hchecks : firstError [aesKeyError keylen, rangeError (cmacOperands dst keyp keylen)] = none := by
    simp only [firstError_eq_none, List.forall_mem_cons, rangeError_eq_none, aesKeyError_eq_none, cmacOperands]
    exact ⟨hkey, ⟨hk, hd, nofun⟩, nofun⟩
  exact runCommand_succeeds hchecks (cmacCompute_ok hk) (by simpa using hd)

theorem cmacL_length (key : List Byte) : (cmacL key).length = 16 := aesEnc_length _ _

/-- K1 is the first half of the result (R203). -/
theorem take_cmacSubkeys (key : List Byte) : (cmacSubkeys key).take 16 = doubled (cmacL key) :=
  List.take_left' ((doubled_length _).trans (cmacL_length key))

/-- K2 is the second half of the result (R203). -/
theorem take_drop_cmacSubkeys (key : List Byte) :
    ((cmacSubkeys key).drop 16).take 16 = doubled (doubled (cmacL key)) := by
  have hK1 : (doubled (cmacL key)).length = 16 := (doubled_length _).trans (cmacL_length key)
  have hdrop : (cmacSubkeys key).drop 16 = doubled (doubled (cmacL key)) := List.drop_left' hK1
  rw [hdrop, List.take_of_length_le (by rw [doubled_length, hK1])]

/-- Settles O15: the two halves of the stored string are K1 and K2, each the doubled block before it. -/
theorem cmacSkStoresBothSubkeys : Obligations.CmacSkStoresBothSubkeys := by
  intro s dst keyp keylen hwf hkey hk hd
  have hL := cmacL_length (s.wmem.bytes keyp keylen)
  have hlen := cmacSubkeys_length (s.wmem.bytes keyp keylen)
  refine ⟨_, exec_cmacSk hkey hk hd, completedFrom_stores hwf hlen hd, ?_⟩
  have hpart {k : Nat} (hk16 : k + 16 ≤ 32) := bytes_stores_part
    (r := ⟨cmacSubkeys (s.wmem.bytes keyp keylen), none⟩) hwf hlen hd hk16
  have hfirst := (hpart (k := 0) (by decide)).trans (take_cmacSubkeys _)
  have hsecond := (hpart (k := 16) (by decide)).trans (take_drop_cmacSubkeys _)
  rw [Nat.add_zero] at hfirst
  intro dbl
  rw [hsecond, hfirst]
  exact ⟨intBe_doubled hL, intBe_doubled ((doubled_length _).trans hL)⟩

/-! ### RANGE -/

theorem rangeError_of_outside {os : List Operand} {o : Operand} (ho : o ∈ os) (h : 256 < o.ptr + o.len) :
    rangeError os = some .range :=
  rangeError_eq_some.2 ⟨rfl, o, ho, by omega⟩

/-- The operands of each command's range check (R225). -/
def Instr.operands : Instr → List Operand
  | .cbcAes dst srca len keyp keylen ivp => cbcOperands 16 dst srca len keyp keylen ivp
  | .cbcTdea dst srca len keyp keylen ivp => cbcOperands 8 dst srca len keyp keylen ivp
  | .cmacSk dst keyp keylen => cmacOperands dst keyp keylen
  | .xor dst srca srcb len => xorOperands dst srca srcb len
  | .shl1 dst srca len | .rev dst srca len | .copy dst srca len => unaryOperands dst srca len
  | .pad dst srca len m => padOperands dst srca len m

/-- The operands checked are those of the table of R225. -/
theorem operandRow_eq_map (i : Instr) :
    Instr.operandRow i = (Instr.operands i).map fun o => (o.ptr, o.len) := by
  cases i <;> rfl

/-- Once key and length are accepted, the range check of the operands decides. -/
theorem firstError_checks_of_accepted {i : Instr} (hk : Instr.keyAccepted i) (hl : Instr.lengthAccepted i) :
    firstError (Instr.checks i) = rangeError (Instr.operands i) := by
  have hlast (c : Option CmdError) : firstError [c] = c := by cases c <;> rfl
  cases i with
  | cbcAes dst srca len keyp keylen ivp =>
    rw [Instr.checks, aesKeyError_eq_none.2 hk, blockError_eq_none.2 hl, firstError_none, firstError_none, hlast,
      Instr.operands]
  | cbcTdea dst srca len keyp keylen ivp =>
    rw [Instr.checks, tdeaKeyError_eq_none.2 hk, blockError_eq_none.2 hl, firstError_none, firstError_none, hlast,
      Instr.operands]
  | cmacSk dst keyp keylen =>
    rw [Instr.checks, aesKeyError_eq_none.2 hk, firstError_none, hlast, Instr.operands]
  | _ => exact hlast _

/-- Settles O18: the first check that fails is the range check. -/
theorem outOfRangeOperandFailsWithCodeFive : Obligations.OutOfRangeOperandFailsWithCodeFive := by
  intro i s hk hl hout
  obtain ⟨p, hp, hlt⟩ := hout
  rw [operandRow_eq_map, List.mem_map] at hp
  obtain ⟨o, ho, rfl⟩ := hp
  exact exec_fails ((firstError_checks_of_accepted hk hl).trans (rangeError_of_outside ho hlt)) s

end Sys2Proof.Machine
end

section
/-! PROOFS. Runs of transfers: how they interleave with the engine, and what `poll` finds. -/

namespace Sys2Proof.Machine

/-! ### Runs -/

/-- The state with these steps to come. -/
def State.withInputs (s : State) (is : List Input) : State := { s with inputs := is }

/-- The state with this last answer. -/
def State.withResponse (s : State) (a : Response) : State := { s with response := a }

/-- A run over a list is its first step, then the run over the rest from where it leads. -/
theorem runInputs_cons_eq {e : Input} {es : List Input} {s t : State}
    (h : takeInput e (s.withInputs es) = .next t) (hin : t.inputs = es) :
    runInputs s (e :: es) = runInputs t es := by
  rw [runInputs_cons h, runInputs, ← hin]

theorem Completion.apply_withInputs (k : Completion) (s : State) (is : List Input) :
    k.apply (s.withInputs is) = (k.apply s).withInputs is := by
  cases k <;> rfl

theorem Completion.apply_withResponse (k : Completion) (s : State) (a : Response) :
    k.apply (s.withResponse a) = (k.apply s).withResponse a := by
  cases k <;> rfl

/-- The completion is that of every state that holds this command and this WMEM. -/
def Completes (k : Completion) (c : Command) (m : Memory) : Prop :=
  ∀ u : State, u.command = c → u.wmem = m → complete u = .next (k.apply u)

section
variable {k : Completion} {s : State}

theorem engineTurn_completes (hk : Completes k s.command s.wmem) (hp : s.pending) :
    engineTurn s = .next (k.apply s) :=
  (engineTurn_pending hp).trans (hk s rfl rfl)

/-- The engine's turn of a run completes the pending command. -/
theorem runInputs_engineTurn (hk : Completes k s.command s.wmem) (hp : s.pending) (es : List Input) :
    runInputs s (.engineTurn :: es) = runInputs (k.apply s) es := by
  have hturn : takeInput .engineTurn (s.withInputs es) = .next (k.apply (s.withInputs es)) :=
    engineTurn_completes (s := s.withInputs es) hk hp
  rw [runInputs_cons_eq hturn (k.apply_inputs _), k.apply_withInputs]
  rfl

end

/-! ### Transfers while a command is pending -/

/-- The state with ACCERR and the last answer as given. -/
def State.withAccess (s : State) (accerr : Bool) (a : Response) : State :=
  { s with status := { s.status with accerr := accerr }, response := a }

theorem takeInput_read {s : State} (hr : s.rstN = true) (off : Offset) :
    takeInput (.read off) s = .next (hostRead off s) := if_pos hr

theorem takeInput_write {s : State} (hr : s.rstN = true) (off : Offset) (w : Word) :
    takeInput (.write off w) s = .next (hostWrite off w s) := if_pos hr

/-- What a read does, as a change of ACCERR and the last answer. -/
theorem ReadEffect.exists_withAccess {off : Offset} {s t : State} (h : ReadEffect off s t) :
    ∃ accerr a, t = s.withAccess accerr a := by
  cases h with
  | answered a => exact ⟨s.status.accerr, a, rfl⟩
  | refused => exact ⟨true, _, rfl⟩

/-- A quiet transfer during BUSY changes ACCERR and the last answer only (R70). -/
theorem takeInput_quiet {e : Input} {s : State} (he : e.quiet = true) (hp : s.pending) :
    ∃ accerr a, takeInput e s = .next (s.withAccess accerr a) := by
  cases e with
  | read off =>
    obtain ⟨accerr, a, h⟩ := (hostRead_effect off s).exists_withAccess
    exact ⟨accerr, a, h ▸ takeInput_read hp.1 off⟩
  | write off w =>
    rw [takeInput_write hp.1]
    cases hmis : misaligned off with
    | true =>
      rw [hostWrite_misaligned hmis]
      exact ⟨s.status.accerr, _, rfl⟩
    | false =>
      have hsoft : ¬(off = 0x004#9 ∧ w.getLsbD 1 = true) := by
        rw [Input.quiet, Bool.not_eq_true', Bool.and_eq_false_iff, decide_eq_false_iff_not] at he
        exact fun h => he.elim (· h.1) (ne_false_of_eq_true h.2)
      rw [hostWrite_busy_refused (misaligned_eq_false.1 hmis) hp.2 hsoft]
      exact ⟨true, _, rfl⟩
  | engineTurn | resetLow | resetHigh => cases he

/-- Quiet transfers one after the other. -/
theorem runInputs_quiet {es : List Input} {s : State} (hes : ∀ e ∈ es, e.quiet = true) (hp : s.pending)
    (is : List Input) : ∃ accerr a, runInputs s (es ++ is) = runInputs (s.withAccess accerr a) is := by
  induction es generalizing s with
  | nil => exact ⟨s.status.accerr, s.response, rfl⟩
  | cons e es ih =>
    obtain ⟨he, hes⟩ := List.forall_mem_cons.1 hes
    obtain ⟨accerr, a, hstep⟩ := takeInput_quiet (s := s.withInputs (es ++ is)) he hp
    obtain ⟨accerr', a', hrest⟩ := ih (s := s.withAccess accerr a) hes hp
    exact ⟨accerr', a', (runInputs_cons_eq hstep rfl).trans hrest⟩

/-- A completion leaves the two fields as they are. -/
theorem sameButAccess_apply (k : Completion) (s : State) (accerr : Bool) (a : Response) (is : List Input) :
    ((k.apply (s.withAccess accerr a)).withInputs is).sameButAccess (k.apply (s.withInputs is)) := by
  cases k <;> rfl

/-- Settles O55: the transfers before the engine's turn leave the command and WMEM, so the completion is the one
at once. -/
theorem resultDoesNotDependOnInterleaving : Obligations.ResultDoesNotDependOnInterleaving := by
  intro s es hp hes
  obtain ⟨k, -, hk⟩ := exists_completion s.command s.wmem
  obtain ⟨accerr, a, hrun⟩ := runInputs_quiet hes hp [.engineTurn]
  have hturn := runInputs_engineTurn (s := s.withAccess accerr a) hk hp []
  exact ⟨_, _, hk (s.withInputs []) rfl rfl, (hrun.trans hturn).trans (runInputs_nil _),
    sameButAccess_apply k s accerr a []⟩

/-! ### `poll` -/

/-- What `poll` reports once BUSY is 0 (R107). -/
def Status.outcome (st : Status) : PollResult := if st.err then .failure st.errcode else .success

theorem pollCheck_of_idle {st : Status} (h : st.busy = false) : pollCheck st.toWord = st.outcome := by
  rw [pollCheck_toWord, h]
  rfl

theorem pollCheck_of_busy {st : Status} (h : st.busy = true) : pollCheck st.toWord = .again := by
  rw [pollCheck_toWord, if_pos h]

/-- The state after a `poll` that ended in `s`: its last read has answered STATUS. -/
def State.polled (s : State) : State := { s with inputs := [], response := .read s.status.toWord false }

/-- A read of STATUS in a run changes the last answer only (R68). -/
theorem runInputs_rd_status {s : State} (hr : s.rstN = true) (es : List Input) :
    runInputs s (rd 0x008#9 :: es) = runInputs (s.withResponse (.read s.status.toWord false)) es := by
  have hread : takeInput (rd 0x008#9) (s.withInputs es) =
      .next ((s.withInputs es).withResponse (.read s.status.toWord false)) :=
    (takeInput_read (s := s.withInputs es) hr _).trans (congrArg _ (hostRead_register windowMap_status _))
  rw [runInputs_cons_eq hread rfl]
  rfl

/-- The reads of `poll` in a run change the last answer only. -/
theorem runInputs_pollTransfers {s : State} (hr : s.rstN = true) (n : Nat) (is : List Input) :
    ∃ a, runInputs s (pollTransfers n ++ is) = runInputs (s.withResponse a) is := by
  induction n generalizing s with
  | zero => exact ⟨s.response, rfl⟩
  | succ n ih =>
    obtain ⟨a, ha⟩ := ih (s := s.withResponse (.read s.status.toWord false)) hr
    exact ⟨a, (runInputs_rd_status hr _).trans ha⟩

/-- A read of `poll` that finds BUSY = 0 ends it. -/
theorem pollRead_of_idle {s : State} (hr : s.rstN = true) (hb : s.status.busy = false) :
    pollRead s = .next (s.polled, s.status.outcome) := by
  rw [pollRead_eq hr, pollCheck_of_idle hb]
  rfl

/-- `poll` of a pending command ends in its completed state, with its outcome, for every latency (R107, R273). -/
theorem poll_pending {k : Completion} {s : State} (hk : Completes k s.command s.wmem) (hp : s.pending) (n : Nat) :
    poll n s = .next ((k.apply s).polled, (k.apply s).status.outcome) := by
  induction n generalizing s with
  | zero =>
    have hturn := engineTurn_completes (s := s.withInputs []) hk hp
    rw [poll_zero hturn, k.apply_withInputs]
    exact pollRead_of_idle (s := (k.apply s).withInputs []) ((k.apply_rstN s).trans hp.1) (k.apply_busy s)
  | succ n ih =>
    have hrest := ih (s := (s.withInputs []).withResponse (.read s.status.toWord false)) hk hp
    rw [k.apply_withResponse, k.apply_withInputs] at hrest
    exact (poll_succ_busy hp.1 hp.2).trans hrest

/-- `poll` with nothing pending ends at its first read (R107). -/
theorem poll_idle {s : State} (hi : s.idle) (n : Nat) : poll n s = .next (s.polled, s.status.outcome) := by
  obtain ⟨hr, hb⟩ := hi
  cases n with
  | zero =>
    have hturn : engineTurn (s.withInputs []) = .next (s.withInputs []) :=
      engineTurn_not_pending fun h => ne_true_of_eq_false hb h.2
    exact (poll_zero hturn).trans (pollRead_of_idle (s := s.withInputs []) hr hb)
  | succ n => exact (poll_succ_idle hr hb).trans (pollRead_of_idle hr hb)

/-- Settles O60: the reads leave the command pending, and the engine's turn completes it. -/
theorem pollEndsAndReportsTheOutcome : Obligations.PollEndsAndReportsTheOutcome := by
  intro s n hp
  obtain ⟨k, -, hk⟩ := exists_completion s.command s.wmem
  refine ⟨?named, ?unnamed, ?host, fun v hi => poll_idle hi n⟩
  case named =>
    obtain ⟨a, hreads⟩ := runInputs_pollTransfers hp.1 n [.engineTurn, rd 0x008#9]
    have hturn := runInputs_engineTurn (s := s.withResponse a) hk hp [rd 0x008#9]
    have hread := runInputs_rd_status (s := k.apply (s.withResponse a)) ((k.apply_rstN _).trans hp.1) []
    exact ⟨_, ((hreads.trans hturn).trans hread).trans (runInputs_nil _), k.apply_busy _, k.apply_done _, rfl,
      pollCheck_of_idle (k.apply_busy _)⟩
  case unnamed =>
    obtain ⟨a, hreads⟩ := runInputs_pollTransfers hp.1 n []
    rw [List.append_nil, runInputs_nil] at hreads
    have hturn := engineTurn_completes (s := (s.withResponse a).withInputs []) hk hp
    exact ⟨(s.withResponse a).withInputs [], _, hreads, hp, pollCheck_of_busy hp.2, (step_nil rfl).trans hturn,
      k.apply_busy _, k.apply_done _⟩
  case host =>
    refine ⟨k.apply (s.withInputs []), hk _ rfl rfl, ?_⟩
    rw [k.apply_withInputs]
    exact poll_pending hk hp n

end Sys2Proof.Machine
end

section
/-! PROOFS. The lines of the assembler run by the host: command lines, `ldb` and `rdb`. -/

namespace Sys2Proof.Machine

/-! ### Register writes in a run -/

theorem writeRegister_withInputs (s : State) (is : List Input) (r : Register) (w : Word) :
    writeRegister (s.withInputs is) r w = (writeRegister s r w).withInputs is := by
  cases r with
  | ctrl =>
    simp only [writeRegister, ctrlWrite]
    split_ifs <;> rfl
  | _ => rfl

theorem writeRegister_withResponse (s : State) (a : Response) (r : Register) (w : Word) :
    writeRegister (s.withResponse a) r w = (writeRegister s r w).withResponse a := by
  cases r with
  | ctrl =>
    simp only [writeRegister, ctrlWrite]
    split_ifs <;> rfl
  | _ => rfl

/-- A write of a register in a run, while idle (R67). -/
theorem runInputs_write_register {s : State} (hi : s.idle) (r : Register) (w : Word) (es : List Input) :
    runInputs s (.write r.offset w :: es) = runInputs ((writeRegister s r w).withResponse (.write false)) es := by
  have hwrite : takeInput (.write r.offset w) (s.withInputs es) =
      .next ((writeRegister (s.withInputs es) r w).withResponse (.write false)) :=
    (takeInput_write (s := s.withInputs es) hi.1 _ _).trans
      (congrArg _ (hostWrite_register_idle (s := s.withInputs es) (windowMap_eq_register_iff.2 rfl) hi.2 w))
  rw [writeRegister_withInputs] at hwrite
  rw [runInputs_cons_eq hwrite rfl]
  rfl

/-! ### The operand writes of a command line -/

/-- The operand registers that a command line writes, with their values, in its order (R104). -/
def Instr.operandWrites : Instr → List (Register × Nat)
  | .cbcAes dst srca len keyp keylen ivp | .cbcTdea dst srca len keyp keylen ivp =>
    [(.srca, srca), (.dst, dst), (.len, len), (.keyp, keyp), (.keylen, keylen), (.ivp, ivp)]
  | .cmacSk dst keyp keylen => [(.dst, dst), (.keyp, keyp), (.keylen, keylen)]
  | .xor dst srca srcb len => [(.srca, srca), (.srcb, srcb), (.dst, dst), (.len, len)]
  | .shl1 dst srca len | .pad dst srca len _ | .rev dst srca len | .copy dst srca len =>
    [(.srca, srca), (.dst, dst), (.len, len)]

/-- They are the transfers of step 1 of R104. -/
theorem operandTransfers_eq_map (i : Instr) :
    operandTransfers i = (Instr.operandWrites i).map fun p => wr p.1.offset p.2 := by
  cases i <;> rfl

/-- They are the operand registers the command reads (R96). -/
theorem reads_eq_contains (i : Instr) (r : Register) :
    Instr.reads i r = ((Instr.operandWrites i).map Prod.fst).contains r := by
  cases i <;> rfl

theorem operandWrites_registers (i : Instr) : ∀ p ∈ Instr.operandWrites i, p.1 ∈ operandRegisters := by
  cases i <;> simp [Instr.operandWrites, operandRegisters]

/-- The state after writes of registers, without the answers. -/
def State.writeAll (s : State) (ps : List (Register × Nat)) : State :=
  ps.foldl (fun t p => writeRegister t p.1 (BitVec.ofNat 32 p.2)) s

theorem State.writeAll_withResponse (s : State) (a : Response) (ps : List (Register × Nat)) :
    (s.withResponse a).writeAll ps = (s.writeAll ps).withResponse a := by
  induction ps generalizing s with
  | nil => rfl
  | cons p ps ih =>
    simp only [State.writeAll, List.foldl_cons, writeRegister_withResponse] at ih ⊢
    exact ih _

/-- An operand write changes the stored command only. -/
theorem writeRegister_operand {r : Register} (hr : r ∈ operandRegisters) (s : State) (w : Word) :
    writeRegister s r w = s.withCommand (writeRegister s r w).command := by
  simp only [operandRegisters, List.mem_cons, List.not_mem_nil, or_false] at hr
  rcases hr with rfl | rfl | rfl | rfl | rfl | rfl | rfl <;> rfl

/-- Operand writes change the stored command only. -/
theorem State.writeAll_operands {ps : List (Register × Nat)} (hps : ∀ p ∈ ps, p.1 ∈ operandRegisters) (s : State) :
    s.writeAll ps = s.withCommand (s.writeAll ps).command := by
  induction ps generalizing s with
  | nil => rfl
  | cons p ps ih =>
    obtain ⟨hp, hps⟩ := List.forall_mem_cons.1 hps
    change (writeRegister s p.1 (BitVec.ofNat 32 p.2)).writeAll ps =
      s.withCommand ((writeRegister s p.1 (BitVec.ofNat 32 p.2)).writeAll ps).command
    rw [writeRegister_operand hp]
    exact ih hps _

/-- An operand write leaves the word of every other register. -/
theorem registerWord_writeRegister_other {q r : Register} (hq : q ∈ operandRegisters) (hne : r ≠ q) (s : State)
    (w : Word) : registerWord (writeRegister s q w) r = registerWord s r := by
  simp only [operandRegisters, List.mem_cons, List.not_mem_nil, or_false] at hq
  rcases hq with rfl | rfl | rfl | rfl | rfl | rfl | rfl <;> cases r <;> first | rfl | exact absurd rfl hne

theorem registerWord_writeAll_other {ps : List (Register × Nat)} {r : Register}
    (hps : ∀ p ∈ ps, p.1 ∈ operandRegisters) (hr : r ∉ ps.map Prod.fst) (s : State) :
    registerWord (s.writeAll ps) r = registerWord s r := by
  induction ps generalizing s with
  | nil => rfl
  | cons p ps ih =>
    obtain ⟨hp, hps⟩ := List.forall_mem_cons.1 hps
    rw [List.map_cons, List.mem_cons, not_or] at hr
    exact (ih hps hr.2 _).trans (registerWord_writeRegister_other hp hr.1 s _)

/-- Operand writes one after the other in a run, while idle. -/
theorem runInputs_operandWrites {ps : List (Register × Nat)} (hps : ∀ p ∈ ps, p.1 ∈ operandRegisters) {s : State}
    (hi : s.idle) (is : List Input) :
    ∃ a, runInputs s ((ps.map fun p => wr p.1.offset p.2) ++ is) =
      runInputs ((s.writeAll ps).withResponse a) is := by
  induction ps generalizing s with
  | nil => exact ⟨s.response, rfl⟩
  | cons p ps ih =>
    obtain ⟨hp, hps⟩ := List.forall_mem_cons.1 hps
    have hnext : (writeRegister s p.1 (BitVec.ofNat 32 p.2)).idle := by
      rw [writeRegister_operand hp]
      exact hi
    obtain ⟨a, ha⟩ := ih hps (s := (writeRegister s p.1 (BitVec.ofNat 32 p.2)).withResponse (.write false)) hnext
    rw [State.writeAll_withResponse] at ha
    exact ⟨a, (runInputs_write_register hi p.1 _ _).trans ha⟩

/-! ### Command lines -/

/-- The stored command after a command line over `s`: its operands, its command word, the rest as before. -/
def Instr.commandOver (i : Instr) (s : State) : Command :=
  { (s.writeAll (Instr.operandWrites i)).command with cmd := CmdWord.ofWord i.cmdWord }

/-- The state that a command line leaves before its `poll` (R104). -/
def State.lineStarted (s : State) (i : Instr) : State :=
  { (s.withCommand (Instr.commandOver i s)).start with inputs := [], response := .write false }

/-- The transfers of an accepted command line, from idle, leave its command pending (R104). -/
theorem runInputs_commandTransfers {i : Instr} {s : State} (hw : i.wellFormed = true) (hi : s.idle) :
    runInputs s (commandTransfers i) = .next (s.lineStarted i) := by
  rw [commandTransfers_wellFormed hw, operandTransfers_eq_map]
  obtain ⟨a, hoperands⟩ := runInputs_operandWrites (operandWrites_registers i) hi
    [.write 0x010 i.cmdWord, .write 0x004 0x00000001#32]
  rw [State.writeAll_operands (operandWrites_registers i)] at hoperands
  have hcmd := runInputs_write_register
    (s := (s.withCommand (s.writeAll (Instr.operandWrites i)).command).withResponse a) hi .cmd i.cmdWord [.write 0x004 0x00000001#32]
  have hstart := runInputs_write_register (s := (s.withCommand (Instr.commandOver i s)).withResponse (.write false))
    hi .ctrl 0x00000001#32 []
  exact ((hoperands.trans hcmd).trans hstart).trans (runInputs_nil _)

/-- The command a line leaves is the line's instruction (R96, R104). -/
theorem decodeCommand_commandOver {i : Instr} (hw : i.wellFormed = true) (s : State) :
    decodeCommand (Instr.commandOver i s) = .ok i := by
  have hoperands : i.opcode.withOperands (Instr.commandOver i s) = i := by
    cases i
    all_goals
      simp only [Instr.wellFormed, Bool.and_eq_true] at hw
      simp [Instr.opcode, Opcode.withOperands, Instr.commandOver, Instr.operandWrites, State.writeAll, writeRegister,
        toNat_ptrOfWord_ofNat, toNat_imm_cmdWord_pad, hw]
  rw [decodeCommand_of_hasFields (hasFields_ofWord_cmdWord i), hoperands]

/-- A register that the command does not read keeps its value through its line. -/
theorem registerWord_lineStarted {i : Instr} {r : Register} (hr : r ∈ operandRegisters)
    (hreads : Instr.reads i r = false) (s : State) : registerWord (s.lineStarted i) r = registerWord s r := by
  have hnot : r ∉ (Instr.operandWrites i).map Prod.fst := by
    rwa [reads_eq_contains, List.contains_eq_mem, decide_eq_false_iff_not] at hreads
  rw [← registerWord_writeAll_other (operandWrites_registers i) hnot s]
  simp only [operandRegisters, List.mem_cons, List.not_mem_nil, or_false] at hr
  rcases hr with rfl | rfl | rfl | rfl | rfl | rfl | rfl <;> rfl

theorem State.polled_of_inputs_nil {u : State} (h : u.inputs = []) :
    u.polled = { u with response := .read u.status.toWord false } := by
  rw [State.polled, ← h]

/-- Settles O57: the line's transfers leave the line's command over the old registers, and `poll` completes it; a
rejected line has no transfers. -/
theorem commandLineLeavesItsCommandPending : Obligations.CommandLineLeavesItsCommandPending := by
  refine ⟨fun i s hw hi => ?accepted, fun i s hw => ?rejected⟩
  case accepted =>
    have hd := decodeCommand_commandOver hw s
    have hrun := runInputs_commandTransfers hw hi
    have hp : (s.lineStarted i).pending := ⟨hi.1, rfl⟩
    obtain ⟨k, -, hexec⟩ := exists_completion_of_exec i s.wmem
    have hk : Completes k (s.lineStarted i).command (s.lineStarted i).wmem := fun u hc hm =>
      (complete_of_decode (hc ▸ hd)).trans (hexec u hm)
    refine ⟨_, hrun, hp, hd, fun r hr hreads => registerWord_lineStarted hr hreads s, rfl, rfl, rfl, rfl, rfl, rfl,
      _, hexec _ rfl, fun latency => ?_⟩
    rw [runCommandLine_eq hw hrun, poll_pending hk hp, State.polled_of_inputs_nil (k.apply_inputs _)]
    rfl
  case rejected =>
    exact ⟨commandTransfers_rejected hw, fun latency => runCommandLine_rejected hw,
      fun program latency hmem => runProgram_rejected hmem hw⟩

end Sys2Proof.Machine
end

section
/-! PROOFS. The lines `ldb` and `rdb`: words of WMEM, lane by lane. -/

namespace Sys2Proof.Machine

/-! ### Words by their lanes -/

/-- The bus word with these four lanes (R66). -/
def wordOfLanes (f : Nat → Byte) : Word :=
  (f 0).setWidth 32 ||| ((f 1).setWidth 32 <<< 8) ||| ((f 2).setWidth 32 <<< 16) ||| ((f 3).setWidth 32 <<< 24)

/-- Lane `k` of a word of lanes is the lane put there. -/
theorem extractLsb'_wordOfLanes (f : Nat → Byte) {k : Nat} (hk : k < 4) :
    (wordOfLanes f).extractLsb' (8 * k) 8 = f k := by
  apply BitVec.eq_of_getLsbD_eq
  intro i hi
  simp only [wordOfLanes, BitVec.getLsbD_extractLsb', BitVec.getLsbD_or, BitVec.getLsbD_shiftLeft,
    BitVec.getLsbD_setWidth]
  interval_cases k <;> grind

theorem laneBytes_wordOfLanes (f : Nat → Byte) : laneBytes (wordOfLanes f) = [f 0, f 1, f 2, f 3] := by
  have h := @extractLsb'_wordOfLanes f
  simp only [laneBytes]
  rw [← h (k := 0) (by decide), ← h (k := 1) (by decide), ← h (k := 2) (by decide), ← h (k := 3) (by decide)]

/-- A WMEM word is the word of its bytes (R66). -/
theorem wmemLanes_eq_wordOfLanes (m : Memory) (j : Nat) :
    wmemLanes m j = wordOfLanes fun i => m.read (4 * j + i) := rfl

/-- The bytes of a WMEM word. -/
theorem laneBytes_wmemLanes (m : Memory) (j : Nat) : laneBytes (wmemLanes m j) = m.bytes (4 * j) 4 := by
  rw [wmemLanes_eq_wordOfLanes, laneBytes_wordOfLanes]
  rfl

/-! ### The words a line touches -/

theorem mem_touchedWords {a n j : Nat} : j ∈ touchedWords a n ↔ n ≠ 0 ∧ a / 4 ≤ j ∧ j ≤ (a + n - 1) / 4 := by
  unfold touchedWords
  split
  · simp [*]
  · rw [List.mem_range'_1]
    omega

/-- Bytes inside WMEM touch words inside WMEM. -/
theorem lt_of_mem_touchedWords {a n j : Nat} (h : a + n ≤ 256) (hj : j ∈ touchedWords a n) : j < 64 := by
  rw [mem_touchedWords] at hj
  omega

/-- The word of each byte of the line is touched. -/
theorem div_mem_touchedWords {a n x : Nat} (hlo : a ≤ x) (hhi : x < a + n) : x / 4 ∈ touchedWords a n := by
  rw [mem_touchedWords]
  omega

/-! ### Word transfers in a run -/

/-- A read of a WMEM word in a run, while idle (R66, R68). -/
theorem runInputs_rd_wmem {s : State} (hi : s.idle) {j : Nat} (hj : j < 64) (es : List Input) :
    runInputs s (rd (wmemOffset j) :: es) = runInputs (s.withResponse (.read (wmemLanes s.wmem j) false)) es := by
  have hread : takeInput (rd (wmemOffset j)) (s.withInputs es) =
      .next ((s.withInputs es).withResponse (.read (wmemLanes s.wmem j) false)) :=
    (takeInput_read (s := s.withInputs es) hi.1 _).trans
      (congrArg _ (hostRead_wmem_idle (s := s.withInputs es) hj hi.2))
  rw [runInputs_cons_eq hread rfl]
  rfl

/-- The state after a WMEM word is written. -/
def State.withWord (s : State) (j : Nat) (w : Word) : State :=
  { s with wmem := s.wmem.writeBytes (4 * j) (laneBytes w), response := .write false }

/-- A write of a WMEM word in a run, while idle (R66, R67). -/
theorem runInputs_write_wmem {s : State} (hi : s.idle) {j : Nat} (hj : j < 64) (w : Word) (es : List Input) :
    runInputs s (.write (wmemOffset j) w :: es) = runInputs (s.withWord j w) es := by
  have hwrite : takeInput (.write (wmemOffset j) w) (s.withInputs es) = .next ((s.withInputs es).withWord j w) :=
    (takeInput_write (s := s.withInputs es) hi.1 _ _).trans
      (congrArg _ (hostWrite_wmem_idle (s := s.withInputs es) hj hi.2 w))
  rw [runInputs_cons_eq hwrite rfl]
  rfl

/-! ### `ldb` -/

/-- The byte that `ldb` leaves at `x`: the string's byte where it covers `x`, else the byte WMEM holds (R105). -/
def mergedByte (m : Memory) (a : Nat) (bs : List Byte) (x : Nat) : Byte :=
  if a ≤ x ∧ x < a + bs.length then bs.getD (x - a) 0x00#8 else m.read x

/-- The merged word is the word of the merged bytes (R105). -/
theorem mergedWord_eq_wordOfLanes (m : Memory) (a : Nat) (bs : List Byte) (j : Nat) :
    mergedWord m a bs j = wordOfLanes fun i => mergedByte m a bs (4 * j + i) := by
  simp only [mergedWord, wordOfLanes, mergedByte, laneCovered, Bool.and_eq_true, decide_eq_true_eq]

/-- The transfers of `ldb` for one word write the merged word, with a read before it or not (R105). -/
theorem runInputs_ldbWord {s : State} (hi : s.idle) {j : Nat} (hj : j < 64) (m : Memory) (a : Nat)
    (bs : List Byte) (es : List Input) :
    runInputs s (ldbWord m a bs j ++ es) = runInputs (s.withWord j (mergedWord m a bs j)) es := by
  unfold ldbWord
  split
  · exact runInputs_write_wmem hi hj _ es
  · exact (runInputs_rd_wmem hi hj _).trans
      (runInputs_write_wmem (s := s.withResponse (.read (wmemLanes s.wmem j) false)) hi hj _ es)

/-- WMEM after a merged word: the merged bytes in the word, every other byte as before. -/
theorem read_withWord_mergedWord {s : State} (hwf : s.wmem.wf = true) {j : Nat} (hj : j < 64) (m : Memory) (a : Nat)
    (bs : List Byte) (x : Nat) :
    (s.withWord j (mergedWord m a bs j)).wmem.read x =
      if x / 4 = j then mergedByte m a bs x else s.wmem.read x := by
  have hin : 4 * j + (laneBytes (mergedWord m a bs j)).length ≤ 256 := by
    rw [laneBytes_length]
    omega
  rw [State.withWord]
  split
  · next hx =>
    have hk : x - 4 * j < 4 := by omega
    have hread := Memory.read_writeBytes_inside hin hwf (i := x - 4 * j) hk
    rw [laneBytes_getD _ hk, mergedWord_eq_wordOfLanes, extractLsb'_wordOfLanes _ hk] at hread
    rw [show 4 * j + (x - 4 * j) = x by omega] at hread
    rw [mergedWord_eq_wordOfLanes]
    exact hread
  · exact Memory.read_writeBytes_outside hin hwf (by rw [laneBytes_length]; omega)

theorem wf_withWord {s : State} (hwf : s.wmem.wf = true) {j : Nat} (hj : j < 64) (w : Word) :
    (s.withWord j w).wmem.wf = true := by
  refine Memory.wf_writeBytes ?_ hwf
  rw [laneBytes_length]
  omega

/-- `ldb` over a list of words: the merged bytes in them, every other byte as before, and nothing else changed. -/
theorem runInputs_ldbWords {js : List Nat} (hjs : ∀ j ∈ js, j < 64) {s : State} (hi : s.idle)
    (hwf : s.wmem.wf = true) (m : Memory) (a : Nat) (bs : List Byte) :
    ∃ m' r, runInputs s (js.flatMap (ldbWord m a bs)) = .next { s with wmem := m', inputs := [], response := r } ∧
      ∀ x, m'.read x = if x / 4 ∈ js then mergedByte m a bs x else s.wmem.read x := by
  induction js generalizing s with
  | nil => exact ⟨s.wmem, s.response, rfl, fun x => by simp⟩
  | cons j js ih =>
    obtain ⟨hj, hjs⟩ := List.forall_mem_cons.1 hjs
    obtain ⟨m', r, hrun, hread⟩ := ih hjs (s := s.withWord j (mergedWord m a bs j)) hi (wf_withWord hwf hj _)
    refine ⟨m', r, (runInputs_ldbWord hi hj m a bs _).trans hrun, fun x => ?_⟩
    rw [hread, read_withWord_mergedWord hwf hj]
    by_cases hx : x / 4 ∈ js <;> by_cases hxj : x / 4 = j <;> simp [hx, hxj]

/-- Settles O58: the touched words get the merged bytes, which are WMEM's own outside the string. -/
theorem ldbStoresExactlyItsBytes : Obligations.LdbStoresExactlyItsBytes := by
  intro s a bs hi hwf hin
  obtain ⟨m', r, hrun, hread⟩ :=
    runInputs_ldbWords (fun j hj => lt_of_mem_touchedWords hin hj) hi hwf s.wmem a bs
  refine ⟨_, hrun, rfl, fun x => (hread x).trans ?_⟩
  change (if x / 4 ∈ touchedWords a bs.length then mergedByte s.wmem a bs x else s.wmem.read x) =
    mergedByte s.wmem a bs x
  split
  · rfl
  · next hx => exact (if_neg fun h => hx (div_mem_touchedWords h.1 h.2)).symm

/-! ### `rdb` -/

theorem Memory.bytes_append (m : Memory) (a k l : Nat) : m.bytes a (k + l) = m.bytes a k ++ m.bytes (a + k) l := by
  refine List.ext_getElem (by simp) fun i h h' => ?_
  rw [List.getElem_append]
  split
  · simp [Memory.bytes]
  · next hge =>
    simp only [Memory.bytes_length, Memory.bytes_getElem] at hge ⊢
    congr 1
    omega

/-- The bytes of consecutive WMEM words. -/
theorem flatMap_laneBytes_wmemLanes (m : Memory) (q c : Nat) :
    ((List.range' q c).map (wmemLanes m)).flatMap laneBytes = m.bytes (4 * q) (4 * c) := by
  induction c generalizing q with
  | zero => rfl
  | succ c ih =>
    rw [List.range'_succ, List.map_cons, List.flatMap_cons, ih, laneBytes_wmemLanes, Nat.mul_succ 4 q,
      Nat.mul_succ 4 c, Nat.add_comm (4 * c) 4, Memory.bytes_append]

/-- Of the touched words `rdb` keeps the bytes of its range (R106). -/
theorem rdbBytes_wmemLanes (m : Memory) (a n : Nat) :
    rdbBytes a n ((touchedWords a n).map (wmemLanes m)) = m.bytes a n := by
  obtain rfl | hn := Nat.eq_zero_or_pos n
  · simp [rdbBytes]
  · have hwords : touchedWords a n = List.range' (a / 4) ((a + n - 1) / 4 + 1 - a / 4) := if_neg hn.ne'
    rw [rdbBytes, hwords, flatMap_laneBytes_wmemLanes, Memory.take_drop_bytes m (by omega), Nat.div_add_mod]

/-- Word reads, while idle, give the words and change the last answer only, run with or without their values kept. -/
theorem runReads_wmem {js : List Nat} (hjs : ∀ j ∈ js, j < 64) {s : State} (hi : s.idle) :
    ∃ a, runReads (js.map wmemOffset) s =
        .next ((s.withResponse a).withInputs [], js.map (wmemLanes s.wmem)) ∧
      runInputs s ((js.map wmemOffset).map rd) = .next ((s.withResponse a).withInputs []) := by
  induction js generalizing s with
  | nil => exact ⟨s.response, rfl, rfl⟩
  | cons j js ih =>
    obtain ⟨hj, hjs⟩ := List.forall_mem_cons.1 hjs
    have hread : hostRead (wmemOffset j) (s.withInputs []) =
        (s.withInputs []).withResponse (.read (wmemLanes s.wmem j) false) :=
      hostRead_wmem_idle (s := s.withInputs []) hj hi.2
    obtain ⟨a, hreads, hrun⟩ := ih hjs (s := (s.withInputs []).withResponse (.read (wmemLanes s.wmem j) false)) hi
    refine ⟨a, ?_, (runInputs_rd_wmem hi hj _).trans hrun⟩
    refine (runReads_cons hi.1 ((congrArg (runReads _) hread).trans hreads)).trans ?_
    rw [show hostRead (wmemOffset j) { s with inputs := [] } = _ from hread]
    rfl

/-- Settles O59: the reads give the touched words, of which `rdb` keeps its bytes. -/
theorem rdbKeepsExactlyItsBytes : Obligations.RdbKeepsExactlyItsBytes := by
  intro a n hin
  refine ⟨fun m => rdbBytes_wmemLanes m a n, fun s hi => ?_⟩
  obtain ⟨r, hreads, hrun⟩ := runReads_wmem (fun j hj => lt_of_mem_touchedWords hin hj) hi
  refine ⟨_, (runRdb_eq hreads).trans ?_, hrun, rfl⟩
  rw [rdbBytes_wmemLanes]

end Sys2Proof.Machine
end
